-- ==== Sys2Proof/Word.lean ====
section
/-! DEFINITION. The widths of PCODEC: bytes, 16-bit values, the 40-bit command word. -/

namespace Sys2Proof

/-- A byte, "an unsigned integer in 0 to 255" (00_scope R8). -/
abbrev Byte := BitVec 8

/-- A 16-bit value: operand `W`, result `R16`, register `CRCR` (20_memory R54). -/
abbrev Half := BitVec 16

/-- The command word `CMDW` (30_encoding R70). -/
abbrev CmdWord := BitVec 40

end Sys2Proof
end

