-- ==== Sys2Proof/Syntax.lean ====
section
/-! DEFINITION. The 23 operations of 30_encoding R72 with the scalar operands R71 gives each, and the command a host presents. -/

namespace Sys2Proof

/-- One operation with its scalar operands (30_encoding R71, R72). The input bytes `IBUF` travel beside the command
word, on the command port, and are not part of the instruction. -/
inductive Instr where
  | nop
  | srst
  | sclr
  | xclr
  | xabs (a : Byte)
  | xsum (length command : Byte)
  | cinit
  | cabs (a : Byte)
  | csum
  | menc (direction command : Byte)
  | mdec
  | prst
  | pfeed (a : Byte)
  | pfeedn
  | eload
  | eget (field : Half)
  | eset (field : Half)
  | estore
  | edec
  | eenc (field : Half)
  | fencC (command : Byte) (address : Half)
  | fencR (command ack : Byte) (address : Half)
  | fdec
deriving DecidableEq, Repr

/-- What the host presents for one operation: the command word and the input bytes (30_encoding R70, 20_memory R52). -/
structure Command where
  cmdw : CmdWord
  ibuf : List Byte
deriving DecidableEq, Repr

/-- `ILEN`, the number of input bytes presented; a natural number and not a byte (20_memory R52). -/
def Command.ilen (c : Command) : Nat := c.ibuf.length

end Sys2Proof
end

