-- ==== Sys2Proof/Decode.lean ====
section
/-! DEFINITION. The command word (30_encoding R70 to R75): decoder, encoder, and the host's view of the decoder. -/

namespace Sys2Proof

/-- What a command word selects: an operation, or an `OP` value that R72 does not assign (30_encoding R75). -/
inductive Decoded where
  | instr (i : Instr)
  | illegal (op : Byte)
deriving DecidableEq, Repr

/-- Field `OP`, bits 39:32 (30_encoding R70). -/
def opOf (w : CmdWord) : Byte := w.extractLsb' 32 8

/-- Field `A`, bits 31:24 (30_encoding R70). -/
def aOf (w : CmdWord) : Byte := w.extractLsb' 24 8

/-- Field `B`, bits 23:16 (30_encoding R70). -/
def bOf (w : CmdWord) : Byte := w.extractLsb' 16 8

/-- Field `W`, bits 15:0 (30_encoding R70). -/
def wOf (w : CmdWord) : Half := w.extractLsb' 0 16

/-- The decoder: `OP` matched on all 8 bits (30_encoding R72), unused fields dropped unread (R74), every other `OP`
rejected by name (R75). -/
def decode (w : CmdWord) : Decoded :=
  match (opOf w).toNat with
  | 0x00 => .instr .nop
  | 0x01 => .instr .srst
  | 0x02 => .instr .sclr
  | 0x10 => .instr .xclr
  | 0x11 => .instr (.xabs (aOf w))
  | 0x12 => .instr (.xsum (aOf w) (bOf w))
  | 0x20 => .instr .cinit
  | 0x21 => .instr (.cabs (aOf w))
  | 0x22 => .instr .csum
  | 0x30 => .instr (.menc (aOf w) (bOf w))
  | 0x31 => .instr .mdec
  | 0x40 => .instr .prst
  | 0x41 => .instr (.pfeed (aOf w))
  | 0x42 => .instr .pfeedn
  | 0x50 => .instr .eload
  | 0x51 => .instr (.eget (wOf w))
  | 0x52 => .instr (.eset (wOf w))
  | 0x53 => .instr .estore
  | 0x54 => .instr .edec
  | 0x55 => .instr (.eenc (wOf w))
  | 0x60 => .instr (.fencC (aOf w) (wOf w))
  | 0x61 => .instr (.fencR (aOf w) (bOf w) (wOf w))
  | 0x62 => .instr .fdec
  | _ => .illegal (opOf w)

/-- `CMDW = (OP << 32) | (A << 24) | (B << 16) | W` (30_encoding R70). -/
def pack (op a b : Byte) (w : Half) : CmdWord :=
  ((op.setWidth 40) <<< 32) ||| ((a.setWidth 40) <<< 24) ||| ((b.setWidth 40) <<< 16) ||| (w.setWidth 40)

/-- The operation select code (30_encoding R72). -/
def opcode : Instr → Byte
  | .nop => 0x00
  | .srst => 0x01
  | .sclr => 0x02
  | .xclr => 0x10
  | .xabs _ => 0x11
  | .xsum _ _ => 0x12
  | .cinit => 0x20
  | .cabs _ => 0x21
  | .csum => 0x22
  | .menc _ _ => 0x30
  | .mdec => 0x31
  | .prst => 0x40
  | .pfeed _ => 0x41
  | .pfeedn => 0x42
  | .eload => 0x50
  | .eget _ => 0x51
  | .eset _ => 0x52
  | .estore => 0x53
  | .edec => 0x54
  | .eenc _ => 0x55
  | .fencC _ _ => 0x60
  | .fencR _ _ _ => 0x61
  | .fdec => 0x62

/-- The encoder: unused fields assemble to zero (92_eei_decisions D33). -/
def encode : Instr → CmdWord
  | .nop => pack 0x00 0 0 0
  | .srst => pack 0x01 0 0 0
  | .sclr => pack 0x02 0 0 0
  | .xclr => pack 0x10 0 0 0
  | .xabs a => pack 0x11 a 0 0
  | .xsum l c => pack 0x12 l c 0
  | .cinit => pack 0x20 0 0 0
  | .cabs a => pack 0x21 a 0 0
  | .csum => pack 0x22 0 0 0
  | .menc d c => pack 0x30 d c 0
  | .mdec => pack 0x31 0 0 0
  | .prst => pack 0x40 0 0 0
  | .pfeed a => pack 0x41 a 0 0
  | .pfeedn => pack 0x42 0 0 0
  | .eload => pack 0x50 0 0 0
  | .eget k => pack 0x51 0 0 k
  | .eset k => pack 0x52 0 0 k
  | .estore => pack 0x53 0 0 0
  | .edec => pack 0x54 0 0 0
  | .eenc k => pack 0x55 0 0 k
  | .fencC c a => pack 0x60 c 0 a
  | .fencR c k a => pack 0x61 c k a
  | .fdec => pack 0x62 0 0 0

/-- The bits of the command word an operation reads: `OP` and the operand fields R71 gives it (30_encoding R71, R74). -/
def usedBits : Instr → CmdWord
  | .xabs _ | .cabs _ | .pfeed _ => 0xFFFF000000
  | .xsum _ _ | .menc _ _ => 0xFFFFFF0000
  | .eget _ | .eset _ | .eenc _ => 0xFF0000FFFF
  | .fencC _ _ => 0xFFFF00FFFF
  | .fencR _ _ _ => 0xFFFFFFFFFF
  | .nop | .srst | .sclr | .xclr | .cinit | .csum | .mdec | .prst | .pfeedn | .eload | .estore | .edec | .fdec =>
    0xFF00000000

/-- The 23 assigned operation select codes (30_encoding R72). -/
def assignedOps : List Byte :=
  [0x00, 0x01, 0x02, 0x10, 0x11, 0x12, 0x20, 0x21, 0x22, 0x30, 0x31] ++
  [0x40, 0x41, 0x42, 0x50, 0x51, 0x52, 0x53, 0x54, 0x55, 0x60, 0x61, 0x62]

/-- A command from its assembler form: mnemonic with operands, then the input bytes (30_encoding R89). -/
def Instr.command (i : Instr) (ibuf : List Byte) : Command := ⟨encode i, ibuf⟩

/-- The instruction the decoder reads from a word whose low `nbits` bits are those of `w`, all higher bits 0. -/
def decodeTableWord (nbits w : Nat) : Option Instr :=
  match decode (BitVec.ofNat 40 (w % 2 ^ nbits)) with
  | .instr i => some i
  | .illegal _ => none

end Sys2Proof
end

