-- ==== Sys2Proof/Config.lean ====
section
/-! DEFINITION. What is fixed when the block is built: the parameters of 00_scope R6 and the EEPROM schema.
There are no free values: the spec leaves no value undefined after which an operation goes on. -/

namespace Sys2Proof

/-- The decode kind of a schema entry (30_encoding R85). -/
inductive Kind where
  | scalarU8
  | asciiString
  | byteArray
  | opaqueBlock
deriving DecidableEq, Repr

/-- A schema entry, format `SCHEMA_ENTRY` (30_encoding R85).
DEDUCED (log 13): `offset` and `length` are natural numbers, so that nothing wraps (40_checksum_units R109 (d)). -/
structure SchemaEntry where
  offset : Nat
  length : Nat
  kind : Kind
deriving DecidableEq, Repr

/-- The configuration of 00_scope R6. `NF` is the number of entries of `schema`.
DESIGN CHOICE (log 3): it is carried by the state, and no operation writes it. -/
structure Config where
  recLen : Nat
  schema : List SchemaEntry
  ibufSize : Nat
  obufSize : Nat
deriving DecidableEq, Repr

/-- `NF`, the number of schema entries (00_scope R6). -/
def Config.nf (c : Config) : Nat := c.schema.length

/-- `SCHEMA_EX` of 95_test_vectors section 2, with the sizes its programs use (section 3).
DESIGN CHOICE (log 4): the configuration `State.reset` carries; the spec leaves it open. -/
def Config.example : Config where
  recLen := 16
  schema := [⟨0, 1, .scalarU8⟩, ⟨1, 2, .byteArray⟩, ⟨4, 8, .asciiString⟩, ⟨12, 3, .opaqueBlock⟩]
  ibufSize := 264
  obufSize := 264

end Sys2Proof
end

