-- ==== Sys2Proof/WellFormed.lean ====
section
/-! DEFINITION. The checks of 00_scope R6 and R7 on a configuration, and which commands can be presented (20_memory R52).
An `Instr` needs no check: each operand field takes every value of its width (30_encoding R70, R88). -/

namespace Sys2Proof

/-- Conditions (a), (b) and (d) of 00_scope R7 on one entry; (c) is the type `Kind`. -/
def SchemaEntry.wf (recLen : Nat) (e : SchemaEntry) : Bool :=
  decide (1 ≤ e.length) && decide (e.offset + e.length ≤ recLen) &&
    (decide (e.kind ≠ .scalarU8) || decide (e.length = 1))

/-- The byte ranges of two entries share no byte (condition (e) of 00_scope R7). -/
def SchemaEntry.disjoint (e f : SchemaEntry) : Bool :=
  decide (e.offset + e.length ≤ f.offset) || decide (f.offset + f.length ≤ e.offset)

/-- Condition (e) of 00_scope R7: no two entries share a byte. -/
def fieldsDisjoint : List SchemaEntry → Bool
  | [] => true
  | e :: es => es.all (fun f => e.disjoint f) && fieldsDisjoint es

/-- A schema well formed for records of `recLen` bytes (00_scope R7). -/
def schemaWf (recLen : Nat) (es : List SchemaEntry) : Bool :=
  es.all (fun e => e.wf recLen) && fieldsDisjoint es

/-- The conditions of 00_scope R6 and R7 on a configuration. -/
def Config.wf (c : Config) : Bool :=
  decide (1 ≤ c.recLen) && decide (c.recLen ≤ 65536) && decide (c.nf ≤ 65536) &&
    decide (max 264 c.recLen ≤ c.ibufSize) && decide (max 264 c.recLen ≤ c.obufSize) &&
    schemaWf c.recLen c.schema

/-- "`ILEN > IBUF_SIZE` cannot be presented" (20_memory R52). -/
def Command.presentable (cfg : Config) (c : Command) : Bool :=
  decide (c.ilen ≤ cfg.ibufSize)

end Sys2Proof
end

