-- ==== Sys2Proof/Machine/State.lean ====
section
/-! DEFINITION. The state of PCODEC (10_state R20, R21), the outcomes of a step, and the state after reset (R37). -/

namespace Sys2Proof.Machine

/-- `PST`, what the next fed byte is taken to be (10_state R22). The type has the seven legal values and no other,
as R22 allows (log 9). -/
inductive Pst where
  | seekDollar
  | seekM
  | direction
  | length
  | command
  | payload
  | checksum
deriving DecidableEq, Repr

/-- The parser state, the tuple `p` of 42_msp_stream_parser R141 (registers of 10_state R22, R25 to R29). -/
structure Parser where
  pst : Pst
  pdir : Byte
  plen : Byte
  pcmd : Byte
  pck : Byte
  pay : List Byte
deriving DecidableEq, Repr

/-- `P0`, the reset state and the idle state of the parser (42_msp_stream_parser R141, 10_state R30). -/
def Parser.idle : Parser := ⟨.seekDollar, 0, 0, 0, 0, []⟩

/-- A complete MSP frame as the parser hands it over (42_msp_stream_parser R142). -/
structure Frame where
  dir : Byte
  cmd : Byte
  len : Byte
  payload : List Byte
deriving DecidableEq, Repr

/-- What the parser reports for one byte (42_msp_stream_parser R142). -/
inductive Event where
  | none
  | frame (f : Frame)
  | badDir (got : Byte)
  | ckErr (cmd exp got : Byte)
deriving DecidableEq, Repr

/-- One entry of `FIELDS`: field index, kind, value (43_eeprom_record R177). -/
structure FieldValue where
  index : Nat
  kind : Kind
  value : List Byte
deriving DecidableEq, Repr

/-- The result port (30_encoding R73). A field that the operation's rule does not name is `none` (93 U6); `OBUF` holds
exactly `OLEN` bytes (20_memory R53), so `OLEN` is its length (log 12). -/
structure Result where
  err : Byte
  r8 : Option Byte := none
  r16 : Option Half := none
  obuf : List Byte := []
  found : Option Bool := none
  ev : Option (BitVec 2) := none
  dir : Option Byte := none
  cmd : Option Byte := none
  len : Option Byte := none
  got : Option Byte := none
  exp : Option Byte := none
  used : Option Nat := none
  events : Option (List (Nat × Event)) := none
  sent : Option Byte := none
  addr : Option Half := none
  count : Option Nat := none
  ack : Option Byte := none
  crc : Option Half := none
  trail : Option Bool := none
  kind : Option Kind := none
  fields : Option (List FieldValue) := none
deriving DecidableEq, Repr

/-- `OLEN`, the number of bytes of `OBUF` (20_memory R50, R53). -/
def Result.olen (r : Result) : Nat := r.obuf.length

/-- The result port of an operation that ended `ok` and names no field: `ERR = 0`, `OLEN = 0` (30_encoding R73). -/
def Result.ok : Result := { err := 0 }

/-- The state of PCODEC. The first six fields are the architectural state of 10_state R20 (`REC` and `RECV` are one
field: `record` is `some` exactly when `RECV = 1`, 70_reset_and_hazards R271, log 8). The others are what R21 calls
parameters of the step function, held here because a step takes and answers a state only: the configuration (log 3),
the command port (log 6), the commands the host has still to present (log 1) and the result port (log 2). -/
structure State where
  xacc : Byte
  crcr : Half
  parser : Parser
  record : Option (List Byte)
  status : Byte
  lasterr : Byte
  cfg : Config
  port : Command
  pending : List Command
  result : Option Result
deriving DecidableEq, Repr

/-- Stops of the model that the spec does not describe. The spec's own faults are no stops: they are next states
(60_exceptions R246). -/
inductive Fault where
  /-- Raised by EGET, ESET and EDEC through `memRead` and `memWrite` for an index outside the space, where 00_scope R11
  defines no access. Safe (log 11): no state that meets the invariant raises it (20_memory R59). -/
  | outsideBuffer
deriving DecidableEq, Repr

/-- Reasons for which the model gives no step. -/
inductive Refusal where
  /-- Raised by `exec` for an instruction that has no meaning yet. Safe. No arm raises it in this model. -/
  | notModelled (mnemonic : String)
  /-- Raised by `step` for a command with `ILEN > IBUF_SIZE`, which "cannot be presented" (20_memory R52). Safe (log 7). -/
  | notPresentable
  /-- Raised by `step` in a state whose configuration breaks 00_scope R6 or R7: the model of such a block is "refused to
  build" (R7, 93 U20). Safe (log 3). -/
  | illFormedConfig
deriving DecidableEq, Repr

/-- The state after reset of a block built with configuration `cfg` (10_state R37; 70_reset_and_hazards R270). The port
fields are the model's own (logs 1, 2, 6). -/
def State.resetWith (cfg : Config) : State where
  xacc := 0x00
  crcr := 0x0000
  parser := Parser.idle
  record := none
  status := 0x00
  lasterr := 0x00
  cfg := cfg
  port := ⟨0, []⟩
  pending := []
  result := none

/-- The machine right after reset (10_state R37). DESIGN CHOICE (log 4): it is built with the spec's example
configuration. -/
def State.reset : State := State.resetWith Config.example

end Sys2Proof.Machine
end

