-- ==== Sys2Proof/Machine/Operands.lean ====
section
/-! DEFINITION. The operand forms: the input bytes, byte order, and the pure functions of 00_scope sections 5 and 6. -/

namespace Sys2Proof.Machine

/-- `IBUF[0 ..< ILEN]`, the input bytes of the operation (20_memory R52). -/
def State.ibuf (s : State) : List Byte := s.port.ibuf

/-- `ILEN` (20_memory R52). -/
def State.ilen (s : State) : Nat := s.ibuf.length

/-- `s[i ..< j]` (00_scope R10). -/
def slice (s : List Byte) (i j : Nat) : List Byte := (s.drop i).take (j - i)

/-- `s[i]`, for `i < |s|` (00_scope R10); the callers test the length first. -/
def byteAt (s : List Byte) (i : Nat) : Byte := s.getD i 0

/-- `hi8(w) = w[15:8]` (00_scope R10). -/
def hi8 (w : Half) : Byte := w.extractLsb' 8 8

/-- `lo8(w) = w[7:0]` (00_scope R10). -/
def lo8 (w : Half) : Byte := w.extractLsb' 0 8

/-- `be16(h, l) = (h << 8) | l` (00_scope R10; big-endian, 20_memory R54). -/
def be16 (h l : Byte) : Half := (h.setWidth 16 <<< 8) ||| l.setWidth 16

/-- `xorfold(s)`, the xor of all bytes (00_scope R10). -/
def xorfold (s : List Byte) : Byte := s.foldl (· ^^^ ·) 0

/-- `msp_checksum(length, command, payload)` (00_scope R14). -/
def mspChecksum (length command : Byte) (payload : List Byte) : Byte := length ^^^ command ^^^ xorfold payload

/-- One shift of the CRC register: the polynomial 0x1021 is applied when the bit shifted out is 1 (00_scope R15). -/
def crcShift (t : Half) : Half := if t.getLsbD 15 then (t <<< 1) ^^^ 0x1021 else t <<< 1

/-- `n` shifts of the CRC register. -/
def crcShifts : Nat → Half → Half
  | 0, t => t
  | n + 1, t => crcShifts n (crcShift t)

/-- `crc16_step(c, b)` (00_scope R15). PRESUMED by the spec and checked against its one CRC value (log 15). -/
def crc16Step (c : Half) (b : Byte) : Half := crcShifts 8 (c ^^^ (b.setWidth 16 <<< 8))

/-- `crc16_step` folded over `s` from index 0 upward, started from `c` (00_scope R15). -/
def crc16From (c : Half) (s : List Byte) : Half := s.foldl crc16Step c

/-- `crc16_xmodem(s)` (00_scope R15). -/
def crc16 (s : List Byte) : Half := crc16From 0x0000 s

/-- `count_byte(n)`, for `1 <= n <= 256` (00_scope R16). -/
def countByte (n : Nat) : Byte := BitVec.ofNat 8 (n % 256)

/-- `count_of(c)` (00_scope R16). -/
def countOf (c : Byte) : Nat := if c = 0 then 256 else c.toNat

/-- `rtrim0(s)`: `s` without its trailing 0x00 bytes (00_scope R17). -/
def rtrim0 : List Byte → List Byte
  | [] => []
  | b :: bs =>
    match rtrim0 bs with
    | [] => if b = 0 then [] else [b]
    | t => b :: t

/-- `pad0(s, n)`, for `|s| <= n` (00_scope R17). -/
def pad0 (s : List Byte) (n : Nat) : List Byte := s ++ List.replicate (n - s.length) 0

/-- A direction marker: `'<'`, `'>'` or `'!'` (30_encoding R77, R78; the codes are ASCII, log 14). -/
def isMarker (b : Byte) : Bool := b = 0x3C || b = 0x3E || b = 0x21

/-- `fw_params(s)`: an empty parameter list becomes one zero byte (44_fourway_frame_codec R200). -/
def fwParams (s : List Byte) : List Byte := if s = [] then [0x00] else s

/-- The 2-bit code of a kind (30_encoding R85). -/
def kindCode : Kind → BitVec 2
  | .scalarU8 => 0
  | .asciiString => 1
  | .byteArray => 2
  | .opaqueBlock => 3

/-- The 3-bit number of a parser state (10_state R22). -/
def pstCode : Pst → BitVec 3
  | .seekDollar => 0
  | .seekM => 1
  | .direction => 2
  | .length => 3
  | .command => 4
  | .payload => 5
  | .checksum => 6

/-- The 2-bit code of an event (42_msp_stream_parser R142). -/
def eventCode : Event → BitVec 2
  | .none => 0
  | .frame _ => 1
  | .badDir _ => 2
  | .ckErr _ _ _ => 3

end Sys2Proof.Machine
end

