-- ==== Sys2Proof/Machine/Flags.lean ====
section
/-! DEFINITION. The sticky flags of `STATUS` (10_state R34) and the fault codes (60_exceptions R240). -/

namespace Sys2Proof.Machine

/-- The four flags of `STATUS` (10_state R34). -/
inductive Flag where
  | badDir
  | mckErr
  | nonAscii
  | fault
deriving DecidableEq, Repr

/-- A flag's bit of `STATUS` (10_state R34). -/
def flagBit : Flag → Nat
  | .badDir => 0
  | .mckErr => 1
  | .nonAscii => 2
  | .fault => 3

/-- `STATUS` with one flag set and every other bit kept (10_state R34: sticky). -/
def raiseFlag (f : Flag) (status : Byte) : Byte := status ||| (1#8 <<< flagBit f)

/-- `raiseFlag` under a condition. -/
def raiseFlagIf (c : Bool) (f : Flag) (status : Byte) : Byte := if c then raiseFlag f status else status

/-- A flag of `STATUS`, as the host reads it (10_state R34). -/
def flagOf (f : Flag) (status : Byte) : Bool := status.getLsbD (flagBit f)

/-- The sticky flag an event sets (60_exceptions R243, R247). -/
def eventFlags (status : Byte) : Event → Byte
  | .none => status
  | .frame _ => status
  | .badDir _ => raiseFlag .badDir status
  | .ckErr _ _ _ => raiseFlag .mckErr status

/-- `na`: a fixed-ascii-string value that holds a byte >= 0x80 (43_eeprom_record R170, R173). -/
def nonAscii (k : Kind) (v : List Byte) : Bool :=
  decide (k = .asciiString) && v.any (fun b => decide (0x80 ≤ b.toNat))

/-- The faults of an operation, by the names of 60_exceptions R240. -/
inductive Err where
  | payloadTooLong
  | badDirection
  | tooManyParameters
  | shortFrame
  | checksum
  | schema
  | valueLength
  | noRecord
  | illegalOperation
  | recordLength
deriving DecidableEq, Repr

/-- The code a fault puts in `ERR` and `LASTERR` (60_exceptions R240). -/
def errCode : Err → Byte
  | .payloadTooLong => 0x01
  | .badDirection => 0x02
  | .tooManyParameters => 0x03
  | .shortFrame => 0x04
  | .checksum => 0x05
  | .schema => 0x06
  | .valueLength => 0x07
  | .noRecord => 0x08
  | .illegalOperation => 0x09
  | .recordLength => 0x0A

end Sys2Proof.Machine
end

