-- ==== Sys2Proof/Machine/Ops.lean ====
section
/-! DEFINITION. The named operations on the state: register writes, reads and writes of a byte space, how an operation
ends, taking a fault, presenting a command, and the status port. -/

namespace Sys2Proof.Machine

/-- What an operation answers. -/
abbrev Answer := Host.Outcome State Fault Refusal

/-- `XACC <- v` (10_state R23). -/
def State.withXacc (s : State) (v : Byte) : State := { s with xacc := v }

/-- `CRCR <- v` (10_state R24). -/
def State.withCrcr (s : State) (v : Half) : State := { s with crcr := v }

/-- `(PST, PDIR, PLEN, PCMD, PCK, PAY) <- p` (42_msp_stream_parser R144, R145). -/
def State.withParser (s : State) (p : Parser) : State := { s with parser := p }

/-- `REC <- b; RECV <- 1` (10_state R32, R33). -/
def State.withRecord (s : State) (b : List Byte) : State := { s with record := some b }

/-- `STATUS <- v` (10_state R34). -/
def State.withStatus (s : State) (v : Byte) : State := { s with status := v }

/-- `LASTERR <- v` (10_state R35). -/
def State.withLasterr (s : State) (v : Byte) : State := { s with lasterr := v }

/-- The result port shows `r` (10_state R21, log 2). -/
def State.withResult (s : State) (r : Result) : State := { s with result := some r }

/-- The command port shows `c` (10_state R21, log 6). -/
def State.withPort (s : State) (c : Command) : State := { s with port := c }

/-- The commands the host has still to present (log 1). -/
def State.withPending (s : State) (cs : List Command) : State := { s with pending := cs }

/-- Every register of 10_state R20 takes its reset value from R37; the configuration and the ports are untouched
(45_system_ops R231). -/
def State.resetRegisters (s : State) : State :=
  { State.resetWith s.cfg with port := s.port, pending := s.pending, result := s.result }

/-- `RECV` (10_state R33). -/
def State.recv (s : State) : Bool := s.record.isSome

/-- The byte at offset `i` of `REC`, where there is one (20_memory R58 (b)). -/
def State.recByte (s : State) (i : Nat) : Option Byte := s.record.bind (fun b => b[i]?)

/-- `MemRead(S, i, n)`, defined only inside the space (00_scope R11). -/
def memRead (space : List Byte) (i n : Nat) : Option (List Byte) :=
  if i + n ≤ space.length then some ((space.drop i).take n) else none

/-- `MemWrite(S, i, |v|, v)`, defined only inside the space (00_scope R11). -/
def memWrite (space : List Byte) (i : Nat) (v : List Byte) : Option (List Byte) :=
  if i + v.length ≤ space.length then some (space.take i ++ v ++ space.drop (i + v.length)) else none

/-- An operation ends `ok(r)`: the result port shows `r` and `LASTERR <- 0x00` (00_scope R12, 10_state R35). -/
def finish (r : Result) (s : State) : Answer := .next ((s.withLasterr 0x00).withResult r)

/-- Taking a fault, exactly as 60_exceptions R246 says: `ERR` and `LASTERR` take the code, `STATUS.FAULT <- 1`,
`OLEN = 0`, and nothing else changes. Nothing is entered, so there is no return from it (R248). -/
def raise (e : Err) (s : State) : Answer :=
  .next (((s.withStatus (raiseFlag .fault s.status)).withLasterr (errCode e)).withResult { err := errCode e })

/-- What is at the command port when a step begins. -/
inductive Presented where
  | refuse (r : Refusal)
  | idle
  | command (c : Command) (s : State)

/-- The host presents its next command, if it has one (20_memory R52, R60, R61; 60_exceptions R260). A block whose
configuration is ill formed is not modelled (00_scope R7), and a command with `ILEN > IBUF_SIZE` cannot be presented
(R52). -/
def present (s : State) : Presented :=
  if s.cfg.wf then
    match s.pending with
    | [] => .idle
    | c :: cs => if c.presentable s.cfg then .command c ((s.withPending cs).withPort c) else .refuse .notPresentable
  else .refuse .illFormedConfig

/-- What the host reads on the status port: every register of 10_state R20, at its width (10_state R20, R29;
60_exceptions R259). `rec` is absent while `RECV = 0` (70_reset_and_hazards R271). -/
structure StatusPort where
  xacc : Byte
  crcr : Half
  pst : BitVec 3
  pdir : Byte
  plen : Byte
  pcmd : Byte
  pck : Byte
  pay : List Byte
  pcnt : Byte
  recBytes : Option (List Byte)
  recv : Bool
  status : Byte
  lasterr : Byte
deriving DecidableEq, Repr

/-- The status port: readable between operations, "without an operation and without side effect" (10_state R20). -/
def statusPort (s : State) : StatusPort where
  xacc := s.xacc
  crcr := s.crcr
  pst := pstCode s.parser.pst
  pdir := s.parser.pdir
  plen := s.parser.plen
  pcmd := s.parser.pcmd
  pck := s.parser.pck
  pay := s.parser.pay
  pcnt := BitVec.ofNat 8 s.parser.pay.length
  recBytes := s.record
  recv := s.recv
  status := s.status
  lasterr := s.lasterr

end Sys2Proof.Machine
end

