-- ==== Sys2Proof/Machine/Checksum.lean ====
section
/-! DEFINITION. The XOR checksum unit and the CRC-16/XMODEM generator (40_checksum_units). -/

namespace Sys2Proof.Machine

/-- `XCLR` (40_checksum_units R100). -/
def execXclr (s : State) : Answer := finish Result.ok (s.withXacc 0x00)

/-- `XABS A` (40_checksum_units R101). -/
def execXabs (a : Byte) (s : State) : Answer :=
  finish { err := 0, r8 := some (s.xacc ^^^ a) } (s.withXacc (s.xacc ^^^ a))

/-- `XSUM A, B, IBUF` (40_checksum_units R102): `XACC` is not read and not written. -/
def execXsum (length command : Byte) (s : State) : Answer :=
  finish { err := 0, r8 := some (mspChecksum length command s.ibuf) } s

/-- `CINIT` (40_checksum_units R103). -/
def execCinit (s : State) : Answer := finish Result.ok (s.withCrcr 0x0000)

/-- `CABS A` (40_checksum_units R104). -/
def execCabs (a : Byte) (s : State) : Answer :=
  finish { err := 0, r16 := some (crc16Step s.crcr a) } (s.withCrcr (crc16Step s.crcr a))

/-- `CSUM IBUF` (40_checksum_units R105): `CRCR` is not read and not written. -/
def execCsum (s : State) : Answer := finish { err := 0, r16 := some (crc16 s.ibuf) } s

end Sys2Proof.Machine
end

