-- ==== Sys2Proof/Machine/EepromRecord.lean ====
section
/-! DEFINITION. The EEPROM record encoder and decoder (43_eeprom_record). -/

namespace Sys2Proof.Machine

/-- `decode_field(kind, s).v` (43_eeprom_record R170); its flag `na` is `nonAscii kind` of this value. -/
def decodeField (k : Kind) (s : List Byte) : List Byte :=
  match k with
  | .scalarU8 => s
  | .asciiString => rtrim0 s
  | .byteArray => s
  | .opaqueBlock => s

/-- `encode_field(kind, length, v)`, `none` for `EncodingError.ValueLength` (43_eeprom_record R173); its flag `na` is
`nonAscii kind v`. -/
def encodeField (k : Kind) (length : Nat) (v : List Byte) : Option (List Byte) :=
  match k with
  | .scalarU8 => if v.length = 1 then some v else none
  | .asciiString => if v.length ≤ length then some (pad0 v length) else none
  | .byteArray => if v.length = length then some v else none
  | .opaqueBlock => if v.length = length then some v else none

/-- `ELOAD IBUF` (43_eeprom_record R171). -/
def execEload (s : State) : Answer :=
  if s.ilen ≠ s.cfg.recLen then raise .recordLength s else finish Result.ok (s.withRecord s.ibuf)

/-- The result port of `EGET`: `KIND`, `OBUF`, and `R8` for a scalar-u8 field (43_eeprom_record R172). -/
def egetResult (k : Kind) (v : List Byte) : Result :=
  { err := 0, kind := some k, obuf := v, r8 := if k = .scalarU8 then some (byteAt v 0) else none }

/-- `EGET W` (43_eeprom_record R172); the index is tested before the record (60_exceptions R245). -/
def execEget (field : Half) (s : State) : Answer :=
  match s.cfg.schema[field.toNat]? with
  | none => raise .schema s
  | some e =>
    match s.record with
    | none => raise .noRecord s
    | some b =>
      match memRead b e.offset e.length with
      | none => .fault .outsideBuffer
      | some bytes =>
        finish (egetResult e.kind (decodeField e.kind bytes))
          (s.withStatus (raiseFlagIf (nonAscii e.kind (decodeField e.kind bytes)) .nonAscii s.status))

/-- `ESET W, IBUF` (43_eeprom_record R174): the faults in the order written, and no byte written on any of them. -/
def execEset (field : Half) (s : State) : Answer :=
  match s.cfg.schema[field.toNat]? with
  | none => raise .schema s
  | some e =>
    match s.record with
    | none => raise .noRecord s
    | some b =>
      match encodeField e.kind e.length s.ibuf with
      | none => raise .valueLength s
      | some bytes =>
        match memWrite b e.offset bytes with
        | none => .fault .outsideBuffer
        | some b' =>
          finish Result.ok ((s.withRecord b').withStatus (raiseFlagIf (nonAscii e.kind s.ibuf) .nonAscii s.status))

/-- `ESTORE` (43_eeprom_record R176). -/
def execEstore (s : State) : Answer :=
  match s.record with
  | none => raise .noRecord s
  | some b => finish { err := 0, obuf := b } s

/-- `FIELDS` of a raw block, from the schema entry with index `k` on; `none` where a field does not lie inside the
block (43_eeprom_record R177, 00_scope R11). -/
def edecFields (block : List Byte) (k : Nat) : List SchemaEntry → Option (List FieldValue)
  | [] => some []
  | e :: es =>
    match memRead block e.offset e.length, edecFields block (k + 1) es with
    | some bytes, some rest => some (⟨k, e.kind, decodeField e.kind bytes⟩ :: rest)
    | _, _ => none

/-- `EDEC IBUF` (43_eeprom_record R177): `REC` and `RECV` are neither read nor written. -/
def execEdec (s : State) : Answer :=
  if s.ilen ≠ s.cfg.recLen then raise .recordLength s
  else
    match edecFields s.ibuf 0 s.cfg.schema with
    | none => .fault .outsideBuffer
    | some fs =>
      finish { err := 0, fields := some fs }
        (s.withStatus (raiseFlagIf (fs.any (fun f => nonAscii f.kind f.value)) .nonAscii s.status))

/-- `EENC W, IBUF` (43_eeprom_record R178): `REC` is not touched and `RECV` is not consulted. -/
def execEenc (field : Half) (s : State) : Answer :=
  match s.cfg.schema[field.toNat]? with
  | none => raise .schema s
  | some e =>
    match encodeField e.kind e.length s.ibuf with
    | none => raise .valueLength s
    | some bytes =>
      finish { err := 0, obuf := bytes, r16 := some (BitVec.ofNat 16 e.offset) }
        (s.withStatus (raiseFlagIf (nonAscii e.kind s.ibuf) .nonAscii s.status))

end Sys2Proof.Machine
end

