-- ==== Sys2Proof/Machine/FourWay.lean ====
section
/-! DEFINITION. The four-way frame codec: FENC.C, FENC.R, FDEC (44_fourway_frame_codec). -/

namespace Sys2Proof.Machine

/-- `s` followed by its CRC, high byte first (20_memory R54). -/
def withCrc (s : List Byte) : List Byte := s ++ [hi8 (crc16 s), lo8 (crc16 s)]

/-- The bytes both forms begin with: sentinel, command, address, count byte, parameters (30_encoding R81, R82). -/
def fwHead (c : Byte) (a : Half) (q : List Byte) : List Byte := [0x2F, c, hi8 a, lo8 a, countByte q.length] ++ q

/-- The command form `WIRE_FW_C` for the parameter list `s` (30_encoding R81; 44_fourway_frame_codec R201). -/
def fwCommandForm (c : Byte) (a : Half) (s : List Byte) : List Byte := withCrc (fwHead c a (fwParams s))

/-- The response form `WIRE_FW_R` for the parameter list `s` (30_encoding R82; 44_fourway_frame_codec R202). -/
def fwResponseForm (c k : Byte) (a : Half) (s : List Byte) : List Byte := withCrc (fwHead c a (fwParams s) ++ [k])

/-- `FENC.C A, W, IBUF` (44_fourway_frame_codec R201): `CRCR` is not touched. -/
def execFencC (command : Byte) (address : Half) (s : State) : Answer :=
  if 256 < s.ilen then raise .tooManyParameters s
  else finish { err := 0, obuf := fwCommandForm command address s.ibuf } s

/-- `FENC.R A, B, W, IBUF` (44_fourway_frame_codec R202). -/
def execFencR (command ack : Byte) (address : Half) (s : State) : Answer :=
  if 256 < s.ilen then raise .tooManyParameters s
  else finish { err := 0, obuf := fwResponseForm command ack address s.ibuf } s

/-- The result port of `FDEC` for a frame `raw` of `n` parameters (44_fourway_frame_codec R206). -/
def fdecResult (raw : List Byte) (n : Nat) : Result :=
  { err := 0
    sent := some (byteAt raw 0)
    cmd := some (byteAt raw 1)
    addr := some (be16 (byteAt raw 2) (byteAt raw 3))
    count := some n
    obuf := slice raw 5 (5 + n)
    ack := some (byteAt raw (5 + n))
    crc := some (be16 (byteAt raw (6 + n)) (byteAt raw (7 + n)))
    used := some (8 + n)
    trail := some (decide (8 + n < raw.length)) }

/-- `FDEC IBUF` (44_fourway_frame_codec R206): the three tests in the order written. -/
def execFdec (s : State) : Answer :=
  if s.ilen < 9 then raise .shortFrame s
  else if s.ilen < 8 + countOf (byteAt s.ibuf 4) then raise .shortFrame s
  else if crc16 (slice s.ibuf 0 (6 + countOf (byteAt s.ibuf 4))) ≠
      be16 (byteAt s.ibuf (6 + countOf (byteAt s.ibuf 4))) (byteAt s.ibuf (7 + countOf (byteAt s.ibuf 4))) then
    raise .checksum s
  else finish (fdecResult s.ibuf (countOf (byteAt s.ibuf 4))) s

end Sys2Proof.Machine
end

