-- ==== Sys2Proof/Machine/StreamParser.lean ====
section
/-! DEFINITION. The MSP stream parser: the byte step of 42_msp_stream_parser R143 and PRST, PFEED, PFEEDN. -/

namespace Sys2Proof.Machine

/-- `pstep(p, b)`, row by row the table of 42_msp_stream_parser R143. -/
def pstep (p : Parser) (b : Byte) : Parser × Event :=
  match p.pst with
  | .seekDollar => if b = 0x24 then ({ p with pst := .seekM }, .none) else (p, .none)
  | .seekM => if b = 0x4D then ({ p with pst := .direction }, .none) else (Parser.idle, .none)
  | .direction =>
    if isMarker b then ({ p with pdir := b, pst := .length }, .none) else (Parser.idle, .badDir b)
  | .length => ({ p with plen := b, pck := b, pst := .command }, .none)
  | .command =>
    ({ p with pcmd := b, pck := p.pck ^^^ b, pst := if p.plen = 0 then .checksum else .payload }, .none)
  | .payload =>
    ({ p with
        pay := p.pay ++ [b], pck := p.pck ^^^ b,
        pst := if p.pay.length + 1 < p.plen.toNat then .payload else .checksum }, .none)
  | .checksum =>
    if b = p.pck then (Parser.idle, .frame ⟨p.pdir, p.pcmd, p.plen, p.pay⟩)
    else (Parser.idle, .ckErr p.pcmd p.pck b)

/-- The parser after the bytes of `s` (42_msp_stream_parser R146: the left fold of `pstep`). -/
def feedParser (p : Parser) (s : List Byte) : Parser := s.foldl (fun p b => (pstep p b).1) p

/-- The events other than `EV_NONE` that the bytes of `s` cause, each with the index of its byte, the first byte
having index `i` (42_msp_stream_parser R146). -/
def feedEvents (p : Parser) (i : Nat) : List Byte → List (Nat × Event)
  | [] => []
  | b :: bs =>
    let rest := feedEvents (pstep p b).1 (i + 1) bs
    if (pstep p b).2 = .none then rest else (i, (pstep p b).2) :: rest

/-- `STATUS` after the sticky flags of a list of events (42_msp_stream_parser R146). -/
def eventsFlags (status : Byte) (evs : List (Nat × Event)) : Byte :=
  evs.foldl (fun st e => eventFlags st e.2) status

/-- The result port of a `PFEED` whose byte caused `ev` (42_msp_stream_parser R145). -/
def feedResult (ev : Event) : Result :=
  match ev with
  | .none => { err := 0, ev := some (eventCode ev) }
  | .frame f =>
    { err := 0, ev := some (eventCode ev), dir := some f.dir, cmd := some f.cmd, len := some f.len, obuf := f.payload }
  | .badDir got => { err := 0, ev := some (eventCode ev), got := some got }
  | .ckErr cmd exp got =>
    { err := 0, ev := some (eventCode ev), cmd := some cmd, exp := some exp, got := some got }

/-- `PRST` (42_msp_stream_parser R144). -/
def execPrst (s : State) : Answer := finish Result.ok (s.withParser Parser.idle)

/-- `PFEED A` (42_msp_stream_parser R145). -/
def execPfeed (a : Byte) (s : State) : Answer :=
  finish (feedResult (pstep s.parser a).2)
    ((s.withParser (pstep s.parser a).1).withStatus (eventFlags s.status (pstep s.parser a).2))

/-- `PFEEDN IBUF` (42_msp_stream_parser R146). -/
def execPfeedn (s : State) : Answer :=
  finish { err := 0, events := some (feedEvents s.parser 0 s.ibuf) }
    ((s.withParser (feedParser s.parser s.ibuf)).withStatus
      (eventsFlags s.status (feedEvents s.parser 0 s.ibuf)))

end Sys2Proof.Machine
end

