-- ==== Sys2Proof/Machine/MspCodec.lean ====
section
/-! DEFINITION. The MSP frame codec: MENC, MDEC (41_msp_frame_codec). -/

namespace Sys2Proof.Machine

/-- The frame of 30_encoding R77 for direction marker `d`, command id `c` and payload `p`. -/
def mspFrame (d c : Byte) (p : List Byte) : List Byte :=
  [0x24, 0x4D, d, BitVec.ofNat 8 p.length, c] ++ p ++ [mspChecksum (BitVec.ofNat 8 p.length) c p]

/-- `MENC A, B, IBUF` (41_msp_frame_codec R121); the length is tested first (60_exceptions R245). -/
def execMenc (direction command : Byte) (s : State) : Answer :=
  if 255 < s.ilen then raise .payloadTooLong s
  else if isMarker direction then finish { err := 0, obuf := mspFrame direction command s.ibuf } s
  else raise .badDirection s

/-- The scan of 41_msp_frame_codec R126: feed a private parser from byte index `i` on until the first frame. It answers
`STATUS` with the sticky flags of the discards passed, and the frame with the number of bytes used, if one was found. -/
def mdecScan (p : Parser) (status : Byte) (i : Nat) : List Byte → Byte × Option (Frame × Nat)
  | [] => (status, none)
  | b :: bs =>
    match (pstep p b).2 with
    | .frame f => (status, some (f, i + 1))
    | ev => mdecScan (pstep p b).1 (eventFlags status ev) (i + 1) bs

/-- The result port of `MDEC` (41_msp_frame_codec R126); `ilen` is `USED` when no frame was found. -/
def mdecResult (ilen : Nat) (r : Option (Frame × Nat)) : Result :=
  match r with
  | some (f, used) =>
    { err := 0, found := some true, dir := some f.dir, cmd := some f.cmd, len := some f.len, obuf := f.payload,
      used := some used }
  | none => { err := 0, found := some false, used := some ilen }

/-- `MDEC IBUF` (41_msp_frame_codec R126): the persistent parser is neither read nor written. -/
def execMdec (s : State) : Answer :=
  finish (mdecResult s.ilen (mdecScan Parser.idle s.status 0 s.ibuf).2)
    (s.withStatus (mdecScan Parser.idle s.status 0 s.ibuf).1)

end Sys2Proof.Machine
end

