-- ==== Sys2Proof/Machine/System.lean ====
section
/-! DEFINITION. The system operations NOP, SRST, SCLR (45_system_ops). -/

namespace Sys2Proof.Machine

/-- `NOP` (45_system_ops R230). -/
def execNop (s : State) : Answer := finish Result.ok s

/-- `SRST` (45_system_ops R231). -/
def execSrst (s : State) : Answer := finish Result.ok s.resetRegisters

/-- `SCLR` (45_system_ops R232): `R8` is the value `STATUS` had before the clear. -/
def execSclr (s : State) : Answer := finish { err := 0, r8 := some s.status } (s.withStatus 0x00)

end Sys2Proof.Machine
end

