-- ==== Sys2Proof/Machine/Dispatch.lean ====
section
/-! DEFINITION. One arm per operation, each one call of its meaning. -/

namespace Sys2Proof.Machine

def exec (i : Instr) (s : State) : Host.Outcome State Fault Refusal :=
  match i with
  | .nop => Sys2Proof.Machine.execNop s
  | .srst => Sys2Proof.Machine.execSrst s
  | .sclr => Sys2Proof.Machine.execSclr s
  | .xclr => Sys2Proof.Machine.execXclr s
  | .xabs a => Sys2Proof.Machine.execXabs a s
  | .xsum l c => Sys2Proof.Machine.execXsum l c s
  | .cinit => Sys2Proof.Machine.execCinit s
  | .cabs a => Sys2Proof.Machine.execCabs a s
  | .csum => Sys2Proof.Machine.execCsum s
  | .menc d c => Sys2Proof.Machine.execMenc d c s
  | .mdec => Sys2Proof.Machine.execMdec s
  | .prst => Sys2Proof.Machine.execPrst s
  | .pfeed a => Sys2Proof.Machine.execPfeed a s
  | .pfeedn => Sys2Proof.Machine.execPfeedn s
  | .eload => Sys2Proof.Machine.execEload s
  | .eget k => Sys2Proof.Machine.execEget k s
  | .eset k => Sys2Proof.Machine.execEset k s
  | .estore => Sys2Proof.Machine.execEstore s
  | .edec => Sys2Proof.Machine.execEdec s
  | .eenc k => Sys2Proof.Machine.execEenc k s
  | .fencC c a => Sys2Proof.Machine.execFencC c a s
  | .fencR c k a => Sys2Proof.Machine.execFencR c k a s
  | .fdec => Sys2Proof.Machine.execFdec s

end Sys2Proof.Machine
end

