-- ==== Sys2Proof/Machine/Step.lean ====
section
/-! DEFINITION. One step: the host's next command is presented, decoded and executed. -/

namespace Sys2Proof.Machine

/-- One step (20_memory R60). With no command presented PCODEC "is idle and keeps all its state" (60_exceptions R260,
log 5); an `OP` that R72 does not assign raises IllegalOperation (30_encoding R75). -/
def step (s : State) : Host.Outcome State Fault Refusal :=
  match present s with
  | .refuse r => .refused r
  | .idle => .next s
  | .command c s' =>
    match decode c.cmdw with
    | .instr i => exec i s'
    | .illegal _ => raise .illegalOperation s'

/-- `s` with a command of word `w` and no input bytes as the next one the host presents (log 1). -/
def State.withFetchWord (s : State) (nbits w : Nat) : State :=
  s.withPending (⟨BitVec.ofNat 40 (w % 2 ^ nbits), []⟩ :: s.pending)

end Sys2Proof.Machine
end

