-- ==== Sys2Proof/Safety.lean ====
section
/-! DEFINITION. What claims are stated in: the state after an operation ends `ok` or faults, the invariant of reachable
states, and runs of a list of commands. -/

namespace Sys2Proof.Machine

/-- The state after an operation that ended `ok(r)` and otherwise left `s` (00_scope R12, 10_state R35). -/
def afterOk (r : Result) (s : State) : State := { s with lasterr := 0x00, result := some r }

/-- The state after an operation that faulted in `s` (60_exceptions R246). -/
def afterFault (e : Err) (s : State) : State :=
  { s with status := s.status ||| 0x08#8, lasterr := errCode e, result := some { err := errCode e } }

/-- The parser registers as 10_state R38 says they are in every reachable state. -/
def Parser.ok (p : Parser) : Bool :=
  match p.pst with
  | .seekDollar | .seekM | .direction =>
    decide (p.pdir = 0) && decide (p.plen = 0) && decide (p.pcmd = 0) && decide (p.pay = []) && decide (p.pck = 0)
  | .length =>
    isMarker p.pdir && decide (p.plen = 0) && decide (p.pcmd = 0) && decide (p.pay = []) && decide (p.pck = 0)
  | .command => isMarker p.pdir && decide (p.pcmd = 0) && decide (p.pay = []) && decide (p.pck = p.plen)
  | .payload =>
    isMarker p.pdir && decide (p.pay.length < p.plen.toNat) && decide (p.pck = mspChecksum p.plen p.pcmd p.pay)
  | .checksum =>
    isMarker p.pdir && decide (p.pay.length = p.plen.toNat) && decide (p.pck = mspChecksum p.plen p.pcmd p.pay)

/-- `REC`, when it holds a record, has exactly `RECLEN` bytes (10_state R32). -/
def State.recordOk (s : State) : Bool :=
  match s.record with
  | none => true
  | some b => decide (b.length = s.cfg.recLen)

/-- The invariant of the states a run from reset reaches: a configuration that can be built (00_scope R6, R7), the parser
registers of 10_state R38, a whole record (R32), `STATUS` bits 7:4 zero (R34), `LASTERR` a code of 60_exceptions R240. -/
def State.inv (s : State) : Bool :=
  s.cfg.wf && s.parser.ok && s.recordOk && decide (s.status.toNat < 16) && decide (s.lasterr.toNat ≤ 0x0A)

/-- A step that stops the model with a fault of its own. -/
def stepFaults (s : State) : Prop := ∃ r, step s = .fault r

/-- The host presents the commands `cs` one after another, starting in `s`, and the machine is in `t` after the last
(20_memory R60: the left fold of the step). -/
def Runs (cs : List Command) (s t : State) : Prop :=
  Host.Core.run Sys2Proof.core cs.length (s.withPending cs) = .next t

/-- The operations that take `IBUF` (30_encoding R71). -/
def readsIbuf : Instr → Bool
  | .xsum _ _ | .csum | .menc _ _ | .mdec | .pfeedn | .eload | .eset _ | .edec | .eenc _ => true
  | .fencC _ _ | .fencR _ _ _ | .fdec => true
  | .nop | .srst | .sclr | .xclr | .xabs _ | .cinit | .cabs _ | .prst | .pfeed _ | .eget _ | .estore => false

/-- An answer with its next state changed by `f`. -/
def mapNext (f : State → State) : Answer → Answer
  | .next s => .next (f s)
  | .fault r => .fault r
  | .refused r => .refused r

/-- Each field of `ks` in turn is read by `EGET` and written back by `ESET` with the value read (43_eeprom_record R179). -/
def rewriteFields : List Half → State → Option State
  | [], s => some s
  | k :: ks, s =>
    match exec (.eget k) s with
    | .next t =>
      match t.result with
      | some r =>
        match exec (.eset k) (t.withPort ⟨encode (.eset k), r.obuf⟩) with
        | .next u => rewriteFields ks u
        | _ => none
      | none => none
    | _ => none

/-- A frame event. -/
def isFrameEvent : Event → Bool
  | .frame _ => true
  | _ => false

end Sys2Proof.Machine
end

