-- ==== Sys2Proof/Certificates/Slice0/Obligations.lean ====
section
/-! DEFINITION. The statements for the provers, each from the numbered rules its docstring names. -/

open Sys2Proof Sys2Proof.Machine

/-! ### The command word -/

/-- 30_encoding R70 to R72: every operation's word decodes to the operation with its operands. -/
def Obligations.DecodeOfEncode : Prop := ∀ i : Instr, decode (encode i) = .instr i

/-- 30_encoding R72, R75: an assigned `OP` selects an operation with that select code, any other `OP` none; 23 are
assigned. -/
def Obligations.OnlyAssignedOpsDecode : Prop :=
  assignedOps.Nodup ∧ assignedOps.length = 23 ∧
    ∀ w : CmdWord,
      (opOf w ∈ assignedOps → ∃ i, decode w = .instr i ∧ opcode i = opOf w) ∧
      (opOf w ∉ assignedOps → decode w = .illegal (opOf w))

/-- 30_encoding R74: a field the operation does not use changes nothing, and an operation that takes no `IBUF` behaves
the same whatever is on the command port. -/
def Obligations.UnusedFieldsIgnored : Prop :=
  (∀ (w v : CmdWord) (i : Instr), decode w = .instr i → v &&& usedBits i = w &&& usedBits i → decode v = .instr i) ∧
  (∀ (i : Instr) (s : State) (c : Command), readsIbuf i = false →
    exec i (s.withPort c) = mapNext (fun t => t.withPort c) (exec i s))

/-- Command words written out in 95_test_vectors (V60, V61, programs P1 to P5). -/
def Obligations.WrittenWordsDecode : Prop :=
  decode 0x40FFFFFFFF = .instr .prst ∧ decode 0x00ABCDEF01 = .instr .nop ∧ decode 0x0100000000 = .instr .srst ∧
  decode 0x5100FF0002 = .instr (.eget 2) ∧ decode 0x303C690000 = .instr (.menc 0x3C 0x69) ∧
  decode 0x1202690000 = .instr (.xsum 0x02 0x69) ∧ decode 0x212F000000 = .instr (.cabs 0x2F) ∧
  decode 0x603A007C00 = .instr (.fencC 0x3A 0x7C00) ∧ decode 0x7F12345678 = .illegal 0x7F

/-! ### A step -/

/-- 20_memory R60, R61: a presentable command whose word decodes is executed, with the command on the port and the rest
of the host's commands still to come (logs 1 and 6: the model's own port fields). -/
def Obligations.StepExecutesDecodedCommand : Prop :=
  ∀ (s : State) (c : Command) (cs : List Command) (i : Instr), s.cfg.wf = true → s.pending = c :: cs →
    c.ibuf.length ≤ s.cfg.ibufSize → decode c.cmdw = .instr i → step s = exec i { s with port := c, pending := cs }

/-- 30_encoding R75: a reserved `OP` raises IllegalOperation, code 0x09, and changes nothing else. -/
def Obligations.ReservedOpRaisesIllegalOperation : Prop :=
  ∀ (s : State) (c : Command) (cs : List Command), s.cfg.wf = true → s.pending = c :: cs →
    c.ibuf.length ≤ s.cfg.ibufSize → opOf c.cmdw ∉ assignedOps →
    step s = .next { s with
      port := c, pending := cs, status := s.status ||| 0x08#8, lasterr := 0x09, result := some { err := 0x09 } }

/-- 20_memory R52 and 00_scope R7: a command that cannot be presented has no step, nor has a block whose schema is ill
formed (logs 3 and 7). -/
def Obligations.StepRefusesWhatCannotBePresented : Prop :=
  (∀ s : State, s.cfg.wf = false → step s = .refused .illFormedConfig) ∧
  (∀ (s : State) (c : Command) (cs : List Command), s.cfg.wf = true → s.pending = c :: cs →
    s.cfg.ibufSize < c.ibuf.length → step s = .refused .notPresentable)

/-- 60_exceptions R260: with no command presented PCODEC keeps all its state (log 5: the model's idle step). -/
def Obligations.IdleStepKeepsAllState : Prop :=
  ∀ s : State, s.cfg.wf = true → s.pending = [] → step s = .next s

/-! ### System operations -/

/-- 45_system_ops R230. -/
def Obligations.NopClearsOnlyLasterr : Prop :=
  (∀ w, opOf w = 0x00 → decode w = .instr .nop) ∧ ∀ s, exec .nop s = .next (afterOk { err := 0 } s)

/-- 45_system_ops R231: every register of 10_state R20 takes its reset value; the configuration stays. That the command
port and the commands to come stay too is the model's choice (log 17, with logs 1 and 6). -/
def Obligations.SrstResetsEveryRegister : Prop :=
  (∀ w, opOf w = 0x01 → decode w = .instr .srst) ∧
  ∀ s, exec .srst s = .next
    { xacc := 0x00, crcr := 0x0000, parser := ⟨.seekDollar, 0, 0, 0, 0, []⟩, record := none, status := 0x00,
      lasterr := 0x00, cfg := s.cfg, port := s.port, pending := s.pending, result := some { err := 0 } }

/-- 45_system_ops R232. -/
def Obligations.SclrReturnsAndClearsStatus : Prop :=
  (∀ w, opOf w = 0x02 → decode w = .instr .sclr) ∧
  ∀ s, exec .sclr s = .next (afterOk { err := 0, r8 := some s.status } { s with status := 0x00 })

/-! ### Checksum units -/

/-- 40_checksum_units R100, R101, R102. -/
def Obligations.XorUnitOperations : Prop :=
  (∀ w, opOf w = 0x10 → decode w = .instr .xclr) ∧
  (∀ w, opOf w = 0x11 → decode w = .instr (.xabs (aOf w))) ∧
  (∀ w, opOf w = 0x12 → decode w = .instr (.xsum (aOf w) (bOf w))) ∧
  (∀ s, exec .xclr s = .next (afterOk { err := 0 } { s with xacc := 0x00 })) ∧
  (∀ s a, exec (.xabs a) s =
    .next (afterOk { err := 0, r8 := some (s.xacc ^^^ a) } { s with xacc := s.xacc ^^^ a })) ∧
  (∀ s a b, exec (.xsum a b) s = .next (afterOk { err := 0, r8 := some (a ^^^ b ^^^ xorfold s.port.ibuf) } s))

/-- 40_checksum_units R103, R104, R105. -/
def Obligations.CrcUnitOperations : Prop :=
  (∀ w, opOf w = 0x20 → decode w = .instr .cinit) ∧
  (∀ w, opOf w = 0x21 → decode w = .instr (.cabs (aOf w))) ∧
  (∀ w, opOf w = 0x22 → decode w = .instr .csum) ∧
  (∀ s, exec .cinit s = .next (afterOk { err := 0 } { s with crcr := 0x0000 })) ∧
  (∀ s a, exec (.cabs a) s =
    .next (afterOk { err := 0, r16 := some (crc16Step s.crcr a) } { s with crcr := crc16Step s.crcr a })) ∧
  (∀ s, exec .csum s = .next (afterOk { err := 0, r16 := some (s.port.ibuf.foldl crc16Step 0x0000) } s))

/-- 40_checksum_units R106: absorbing byte by byte gives the value `XSUM` returns; from any `XACC` a run of `XABS` adds
the xor of its bytes, in whatever order they come. -/
def Obligations.StepwiseXorEqualsOneShot : Prop :=
  (∀ (s : State) (l c : Byte) (p : List Byte) (w : CmdWord), s.cfg.wf = true →
    ∃ t u, Runs ([Instr.xclr.command [], (Instr.xabs l).command [], (Instr.xabs c).command []] ++
        p.map (fun b => (Instr.xabs b).command [])) s t ∧
      t.xacc = mspChecksum l c p ∧
      exec (.xsum l c) (s.withPort ⟨w, p⟩) = .next u ∧ u.result = some { err := 0, r8 := some t.xacc }) ∧
  (∀ (s : State) (bs cs : List Byte), s.cfg.wf = true → bs.Perm cs →
    ∃ t, Runs (cs.map (fun b => (Instr.xabs b).command [])) s t ∧ t.xacc = s.xacc ^^^ xorfold bs)

/-- 40_checksum_units R107: absorbing byte by byte gives the value `CSUM` returns, and a CRC may be split anywhere. -/
def Obligations.StepwiseCrcEqualsOneShot : Prop :=
  (∀ (s : State) (p : List Byte) (w : CmdWord), s.cfg.wf = true →
    ∃ t u, Runs (Instr.cinit.command [] :: p.map (fun b => (Instr.cabs b).command [])) s t ∧
      t.crcr = crc16 p ∧
      exec .csum (s.withPort ⟨w, p⟩) = .next u ∧ u.result = some { err := 0, r16 := some t.crcr }) ∧
  (∀ p q : List Byte, crc16 (p ++ q) = q.foldl crc16Step (crc16 p))

/-- 40_checksum_units R108: the residue property. -/
def Obligations.CrcResidueIsZero : Prop :=
  ∀ s : List Byte, crc16 (s ++ [hi8 (crc16 s), lo8 (crc16 s)]) = 0x0000

/-- 95_test_vectors V2, V15, V16, V17: the CRC values the spec writes out. -/
def Obligations.CrcWrittenValues : Prop :=
  crc16 [0x31, 0x32, 0x33, 0x34, 0x35, 0x36, 0x37, 0x38, 0x39] = 0x31C3 ∧ crc16Step 0x0000 0x31 = 0x2672 ∧
  crc16 [0x01] = 0x1021 ∧ crc16 [0x80] = 0x9188 ∧ crc16 [0xFF, 0xFF] = 0x1D0F ∧
  crc16 [0x2F, 0x3A, 0x7C, 0x00, 0x01, 0x00] = 0x843D

/-! ### MSP frame codec -/

/-- 41_msp_frame_codec R121 with the order of 60_exceptions R245: the frame, or the fault. -/
def Obligations.MencBuildsFrameOrFaults : Prop :=
  (∀ w, opOf w = 0x30 → decode w = .instr (.menc (aOf w) (bOf w))) ∧
  (∀ (s : State) (a b : Byte), s.port.ibuf.length ≤ 255 → (a = 0x3C ∨ a = 0x3E ∨ a = 0x21) →
    exec (.menc a b) s = .next (afterOk
      { err := 0
        obuf := [0x24, 0x4D, a, BitVec.ofNat 8 s.port.ibuf.length, b] ++ s.port.ibuf ++
          [BitVec.ofNat 8 s.port.ibuf.length ^^^ b ^^^ xorfold s.port.ibuf] } s)) ∧
  (∀ (s : State) (a b : Byte), 255 < s.port.ibuf.length →
    exec (.menc a b) s = .next (afterFault .payloadTooLong s)) ∧
  (∀ (s : State) (a b : Byte), s.port.ibuf.length ≤ 255 → a ≠ 0x3C → a ≠ 0x3E → a ≠ 0x21 →
    exec (.menc a b) s = .next (afterFault .badDirection s))

/-- 41_msp_frame_codec R122: what `MENC` guarantees of its output, for all three markers alike. -/
def Obligations.MencOutputGuarantees : Prop :=
  ∀ (s : State) (a b : Byte), s.port.ibuf.length ≤ 255 → (a = 0x3C ∨ a = 0x3E ∨ a = 0x21) →
    ∃ t r, exec (.menc a b) s = .next t ∧ t.result = some r ∧
      r.obuf[3]? = some (BitVec.ofNat 8 (r.olen - 6)) ∧ 6 ≤ r.olen ∧ r.olen ≤ 261 ∧
      xorfold (r.obuf.drop 3) = 0x00 ∧ r.obuf.take 2 = [0x24, 0x4D]

/-- 41_msp_frame_codec R126 and 42_msp_stream_parser R150: `MDEC` gives the first frame that `PFEEDN` reports from idle
on the same bytes, with the sticky flags of the discards before it, or `FOUND = 0`; the persistent parser is neither
read nor written. -/
def Obligations.MdecReturnsFirstFrame : Prop :=
  (∀ w, opOf w = 0x31 → decode w = .instr .mdec) ∧
  ∀ s : State, ∃ u evs,
    exec .pfeedn { s with parser := ⟨.seekDollar, 0, 0, 0, 0, []⟩ } = .next u ∧
    u.result = some { err := 0, events := some evs } ∧
    (∀ i f, evs.find? (fun e => isFrameEvent e.2) = some (i, .frame f) →
      exec .mdec s = .next (afterOk
        { err := 0, found := some true, dir := some f.dir, cmd := some f.cmd, len := some f.len, obuf := f.payload
          used := some (i + 1) }
        { s with status := eventsFlags s.status (evs.takeWhile (fun e => !isFrameEvent e.2)) })) ∧
    (evs.find? (fun e => isFrameEvent e.2) = none →
      exec .mdec s = .next (afterOk { err := 0, found := some false, used := some s.port.ibuf.length }
        { s with status := eventsFlags s.status evs }))

/-- 41_msp_frame_codec R128: what `MENC` builds, `MDEC` takes apart. -/
def Obligations.MspRoundTrip : Prop :=
  ∀ (s : State) (d c : Byte) (w v : CmdWord) (p : List Byte), (d = 0x3C ∨ d = 0x3E ∨ d = 0x21) → p.length ≤ 255 →
    ∃ t r u, exec (.menc d c) (s.withPort ⟨w, p⟩) = .next t ∧ t.result = some r ∧
      exec .mdec (t.withPort ⟨v, r.obuf⟩) = .next u ∧
      u.result = some { err := 0, found := some true, dir := some d, cmd := some c
                        len := some (BitVec.ofNat 8 p.length), obuf := p, used := some (p.length + 6) }

/-- 41_msp_frame_codec R129: a frame with one payload or checksum byte changed is rejected and flagged. -/
def Obligations.MspSingleByteCorruptionRejected : Prop :=
  ∀ (s : State) (d c b old : Byte) (w v : CmdWord) (p : List Byte) (i : Nat), (d = 0x3C ∨ d = 0x3E ∨ d = 0x21) →
    p.length ≤ 255 →
    ∃ t r, exec (.menc d c) (s.withPort ⟨w, p⟩) = .next t ∧ t.result = some r ∧
      (5 ≤ i → r.obuf[i]? = some old → b ≠ old →
        ∃ u, exec .mdec (t.withPort ⟨v, r.obuf.set i b⟩) = .next u ∧
          u.result = some { err := 0, found := some false, used := some (p.length + 6) } ∧
          u.status.getLsbD 1 = true)

/-! ### MSP stream parser -/

/-- 42_msp_stream_parser R144. -/
def Obligations.PrstReturnsParserToIdle : Prop :=
  (∀ w, opOf w = 0x40 → decode w = .instr .prst) ∧
  ∀ s, exec .prst s = .next (afterOk { err := 0 } { s with parser := ⟨.seekDollar, 0, 0, 0, 0, []⟩ })

/-- 42_msp_stream_parser R143, states 0 to 4, as `PFEED` (R145) shows them. -/
def Obligations.PfeedHeaderRows : Prop :=
  (∀ w, opOf w = 0x41 → decode w = .instr (.pfeed (aOf w))) ∧
  ∀ (s : State) (a : Byte),
    (s.parser.pst = .seekDollar → exec (.pfeed a) s = .next (afterOk { err := 0, ev := some 0 }
      (if a = 0x24 then { s with parser := { s.parser with pst := .seekM } } else s))) ∧
    (s.parser.pst = .seekM → exec (.pfeed a) s = .next (afterOk { err := 0, ev := some 0 }
      (if a = 0x4D then { s with parser := { s.parser with pst := .direction } }
       else { s with parser := ⟨.seekDollar, 0, 0, 0, 0, []⟩ }))) ∧
    (s.parser.pst = .direction → (a = 0x3C ∨ a = 0x3E ∨ a = 0x21) →
      exec (.pfeed a) s = .next (afterOk { err := 0, ev := some 0 }
        { s with parser := { s.parser with pst := .length, pdir := a } })) ∧
    (s.parser.pst = .direction → a ≠ 0x3C → a ≠ 0x3E → a ≠ 0x21 →
      exec (.pfeed a) s = .next (afterOk { err := 0, ev := some 2, got := some a }
        { s with parser := ⟨.seekDollar, 0, 0, 0, 0, []⟩, status := s.status ||| 0x01#8 })) ∧
    (s.parser.pst = .length → exec (.pfeed a) s = .next (afterOk { err := 0, ev := some 0 }
      { s with parser := { s.parser with pst := .command, plen := a, pck := a } })) ∧
    (s.parser.pst = .command → exec (.pfeed a) s = .next (afterOk { err := 0, ev := some 0 }
      { s with parser :=
        { s.parser with
          pst := if 0 < s.parser.plen.toNat then .payload else .checksum, pcmd := a, pck := s.parser.pck ^^^ a } }))

/-- 42_msp_stream_parser R143, states 5 and 6, as `PFEED` (R145) shows them. -/
def Obligations.PfeedPayloadAndChecksumRows : Prop :=
  ∀ (s : State) (a : Byte),
    (s.parser.pst = .payload → exec (.pfeed a) s = .next (afterOk { err := 0, ev := some 0 }
      { s with parser :=
        { s.parser with
          pst := if s.parser.pay.length + 1 < s.parser.plen.toNat then .payload else .checksum
          pay := s.parser.pay ++ [a], pck := s.parser.pck ^^^ a } })) ∧
    (s.parser.pst = .checksum → a = s.parser.pck → exec (.pfeed a) s = .next (afterOk
      { err := 0, ev := some 1, dir := some s.parser.pdir, cmd := some s.parser.pcmd, len := some s.parser.plen
        obuf := s.parser.pay }
      { s with parser := ⟨.seekDollar, 0, 0, 0, 0, []⟩ })) ∧
    (s.parser.pst = .checksum → a ≠ s.parser.pck → exec (.pfeed a) s = .next (afterOk
      { err := 0, ev := some 3, cmd := some s.parser.pcmd, exp := some s.parser.pck, got := some a }
      { s with parser := ⟨.seekDollar, 0, 0, 0, 0, []⟩, status := s.status ||| 0x02#8 }))

/-- 42_msp_stream_parser R146: `PFEEDN` on no bytes changes nothing, and on one byte more it does what `PFEED` of that
byte does after it, with the event, if there is one, listed at the byte's index. -/
def Obligations.PfeednIsFoldOfPfeed : Prop :=
  (∀ w, opOf w = 0x42 → decode w = .instr .pfeedn) ∧
  (∀ (s : State) (w : CmdWord), exec .pfeedn (s.withPort ⟨w, []⟩) =
    .next (afterOk { err := 0, events := some [] } (s.withPort ⟨w, []⟩))) ∧
  (∀ (s : State) (w : CmdWord) (bs : List Byte) (b : Byte), ∃ t u r evs,
    exec .pfeedn (s.withPort ⟨w, bs⟩) = .next t ∧ t.result = some { err := 0, events := some evs } ∧
    exec (.pfeed b) t = .next u ∧ u.result = some r ∧ r.ev = some (eventCode (pstep t.parser b).2) ∧
    exec .pfeedn (s.withPort ⟨w, bs ++ [b]⟩) = .next (afterOk
      { err := 0
        events := some (if r.ev = some 0 then evs else evs ++ [(bs.length, (pstep t.parser b).2)]) }
      { s with parser := u.parser, status := u.status, port := ⟨w, bs ++ [b]⟩ }))

/-- 42_msp_stream_parser R146: `PFEEDN` always completes, writes the parser and `STATUS` only, and reports at most
`ILEN` events and `(ILEN + 5) / 6` frames, `ILEN / 6` from idle. -/
def Obligations.PfeednCompletesWithinBounds : Prop :=
  ∀ s : State, ∃ p st evs,
    exec .pfeedn s = .next (afterOk { err := 0, events := some evs } { s with parser := p, status := st }) ∧
    evs.length ≤ s.port.ibuf.length ∧ (∀ e ∈ evs, e.1 < s.port.ibuf.length ∧ e.2 ≠ .none) ∧
    (evs.filter (fun e => isFrameEvent e.2)).length ≤ (s.port.ibuf.length + 5) / 6 ∧
    (s.parser = ⟨.seekDollar, 0, 0, 0, 0, []⟩ →
      (evs.filter (fun e => isFrameEvent e.2)).length ≤ s.port.ibuf.length / 6)

/-- 42_msp_stream_parser R148: the split of the stream into buffers does not matter; a frame cut anywhere is reported
once, on its last byte, and leaves the parser idle. -/
def Obligations.SplitIndependence : Prop :=
  (∀ (s : State) (w : CmdWord) (a b : List Byte), ∃ t u v es et,
    exec .pfeedn (s.withPort ⟨w, a⟩) = .next t ∧ t.result = some { err := 0, events := some es } ∧
    exec .pfeedn (t.withPort ⟨w, b⟩) = .next u ∧ u.result = some { err := 0, events := some et } ∧
    exec .pfeedn (s.withPort ⟨w, a ++ b⟩) = .next v ∧
    v.result = some { err := 0, events := some (es ++ et.map (fun e => (e.1 + a.length, e.2))) } ∧
    v.parser = u.parser ∧ v.status = u.status) ∧
  (∀ (s : State) (w : CmdWord) (d c : Byte) (p f : List Byte) (k : Nat), (d = 0x3C ∨ d = 0x3E ∨ d = 0x21) →
    p.length ≤ 255 → s.parser = ⟨.seekDollar, 0, 0, 0, 0, []⟩ →
    f = [0x24, 0x4D, d, BitVec.ofNat 8 p.length, c] ++ p ++ [mspChecksum (BitVec.ofNat 8 p.length) c p] →
    k ≤ f.length →
    ∃ t u es et,
      exec .pfeedn (s.withPort ⟨w, f.take k⟩) = .next t ∧ t.result = some { err := 0, events := some es } ∧
      exec .pfeedn (t.withPort ⟨w, f.drop k⟩) = .next u ∧ u.result = some { err := 0, events := some et } ∧
      es ++ et.map (fun e => (e.1 + k, e.2)) =
        [(p.length + 5, .frame ⟨d, c, BitVec.ofNat 8 p.length, p⟩)] ∧
      u.parser = ⟨.seekDollar, 0, 0, 0, 0, []⟩)

/-- 42_msp_stream_parser R151: every frame reported from idle stands, whole and with its checksum, as the last bytes fed
before its event. -/
def Obligations.SurfacedFramesStandOnTheWire : Prop :=
  ∀ s : State, s.parser = ⟨.seekDollar, 0, 0, 0, 0, []⟩ →
    ∃ t evs, exec .pfeedn s = .next t ∧ t.result = some { err := 0, events := some evs } ∧
      ∀ i f, (i, Event.frame f) ∈ evs →
        (f.dir = 0x3C ∨ f.dir = 0x3E ∨ f.dir = 0x21) ∧ f.len.toNat = f.payload.length ∧
        f.payload.length + 6 ≤ i + 1 ∧ i < s.port.ibuf.length ∧
        slice s.port.ibuf (i + 1 - (f.payload.length + 6)) (i + 1) =
          [0x24, 0x4D, f.dir, f.len, f.cmd] ++ f.payload ++ [mspChecksum f.len f.cmd f.payload]

/-- 42_msp_stream_parser R147 (a): a stray `'$'` before a frame's own `'$'` takes the parser back to idle, and the frame
behind it is lost without any event. -/
def Obligations.StrayDollarLosesFrameSilently : Prop :=
  ∀ (s : State) (w : CmdWord) (d c : Byte) (p : List Byte), s.parser = ⟨.seekDollar, 0, 0, 0, 0, []⟩ →
    (∀ x ∈ [d, BitVec.ofNat 8 p.length, c] ++ p ++ [mspChecksum (BitVec.ofNat 8 p.length) c p], x ≠ 0x24) →
    exec .pfeedn (s.withPort ⟨w, [0x24, 0x24, 0x4D, d, BitVec.ofNat 8 p.length, c] ++ p ++
        [mspChecksum (BitVec.ofNat 8 p.length) c p]⟩) =
      .next (afterOk { err := 0, events := some [] }
        (s.withPort ⟨w, [0x24, 0x24, 0x4D, d, BitVec.ofNat 8 p.length, c] ++ p ++
          [mspChecksum (BitVec.ofNat 8 p.length) c p]⟩))

/-! ### EEPROM record -/

/-- 43_eeprom_record R171 and R176. -/
def Obligations.EloadAndEstoreMoveWholeRecords : Prop :=
  (∀ w, opOf w = 0x50 → decode w = .instr .eload) ∧
  (∀ w, opOf w = 0x53 → decode w = .instr .estore) ∧
  (∀ s : State, s.port.ibuf.length = s.cfg.recLen →
    exec .eload s = .next (afterOk { err := 0 } { s with record := some s.port.ibuf })) ∧
  (∀ s : State, s.port.ibuf.length ≠ s.cfg.recLen → exec .eload s = .next (afterFault .recordLength s)) ∧
  (∀ (s : State) (b : List Byte), s.record = some b → exec .estore s = .next (afterOk { err := 0, obuf := b } s)) ∧
  (∀ s : State, s.record = none → exec .estore s = .next (afterFault .noRecord s))

/-- 43_eeprom_record R172: one field decoded from the loaded record, or the fault, the index tested first. -/
def Obligations.EgetDecodesOneField : Prop :=
  (∀ w, opOf w = 0x51 → decode w = .instr (.eget (wOf w))) ∧
  (∀ (s : State) (k : Half) (e : SchemaEntry) (b v : List Byte), s.cfg.wf = true →
    s.cfg.schema[k.toNat]? = some e → s.record = some b → b.length = s.cfg.recLen →
    v = (if e.kind = .asciiString then rtrim0 (slice b e.offset (e.offset + e.length))
         else slice b e.offset (e.offset + e.length)) →
    exec (.eget k) s = .next (afterOk
      { err := 0, kind := some e.kind, obuf := v, r8 := if e.kind = .scalarU8 then v.head? else none }
      { s with status :=
        if e.kind = .asciiString ∧ ∃ x ∈ v, 0x80 ≤ x.toNat then s.status ||| 0x04#8 else s.status })) ∧
  (∀ (s : State) (k : Half), s.cfg.nf ≤ k.toNat → exec (.eget k) s = .next (afterFault .schema s)) ∧
  (∀ (s : State) (k : Half), k.toNat < s.cfg.nf → s.record = none →
    exec (.eget k) s = .next (afterFault .noRecord s))

/-- 43_eeprom_record R174: exactly the bytes of the field are written, or the fault, in the order written. -/
def Obligations.EsetWritesExactlyOneField : Prop :=
  (∀ w, opOf w = 0x52 → decode w = .instr (.eset (wOf w))) ∧
  (∀ (s : State) (k : Half) (e : SchemaEntry) (b v : List Byte), s.cfg.wf = true →
    s.cfg.schema[k.toNat]? = some e → s.record = some b → b.length = s.cfg.recLen →
    encodeField e.kind e.length s.port.ibuf = some v →
    ∃ b', exec (.eset k) s = .next (afterOk { err := 0 }
        { s with
          record := some b'
          status := if e.kind = .asciiString ∧ ∃ x ∈ s.port.ibuf, 0x80 ≤ x.toNat then s.status ||| 0x04#8
                    else s.status }) ∧
      v.length = e.length ∧ b'.length = s.cfg.recLen ∧
      (∀ i, e.offset ≤ i → i < e.offset + e.length → b'[i]? = v[i - e.offset]?) ∧
      (∀ i, i < e.offset ∨ e.offset + e.length ≤ i → b'[i]? = b[i]?)) ∧
  (∀ (s : State) (k : Half), s.cfg.nf ≤ k.toNat → exec (.eset k) s = .next (afterFault .schema s)) ∧
  (∀ (s : State) (k : Half), k.toNat < s.cfg.nf → s.record = none →
    exec (.eset k) s = .next (afterFault .noRecord s)) ∧
  (∀ (s : State) (k : Half) (e : SchemaEntry) (b : List Byte), s.cfg.schema[k.toNat]? = some e → s.record = some b →
    encodeField e.kind e.length s.port.ibuf = none → exec (.eset k) s = .next (afterFault .valueLength s))

/-- 43_eeprom_record R177: every field of a raw block, in index order, each the value `ELOAD` and `EGET` would give. -/
def Obligations.EdecDecodesEveryField : Prop :=
  (∀ w, opOf w = 0x54 → decode w = .instr .edec) ∧
  (∀ s : State, s.port.ibuf.length ≠ s.cfg.recLen → exec .edec s = .next (afterFault .recordLength s)) ∧
  (∀ s : State, s.cfg.wf = true → s.port.ibuf.length = s.cfg.recLen →
    ∃ fs : List FieldValue, exec .edec s = .next (afterOk { err := 0, fields := some fs }
        { s with status := if ∃ f ∈ fs, f.kind = .asciiString ∧ ∃ x ∈ f.value, 0x80 ≤ x.toNat
                           then s.status ||| 0x04#8 else s.status }) ∧
      fs.length = s.cfg.nf ∧
      (∀ (k : Nat) (e : SchemaEntry), s.cfg.schema[k]? = some e →
        fs[k]? = some ⟨k, e.kind,
          if e.kind = .asciiString then rtrim0 (slice s.port.ibuf e.offset (e.offset + e.length))
          else slice s.port.ibuf e.offset (e.offset + e.length)⟩) ∧
      (∀ (k : Half) (f : FieldValue), fs[k.toNat]? = some f → ∃ t u r,
        exec .eload s = .next t ∧ exec (.eget k) t = .next u ∧ u.result = some r ∧
        r.kind = some f.kind ∧ r.obuf = f.value))

/-- 43_eeprom_record R178: the field's bytes and its offset, needing no record; `ESET` writes exactly these bytes
there. -/
def Obligations.EencEncodesOneField : Prop :=
  (∀ w, opOf w = 0x55 → decode w = .instr (.eenc (wOf w))) ∧
  (∀ (s : State) (k : Half) (e : SchemaEntry) (v : List Byte), s.cfg.wf = true → s.cfg.schema[k.toNat]? = some e →
    encodeField e.kind e.length s.port.ibuf = some v →
    exec (.eenc k) s = .next (afterOk { err := 0, obuf := v, r16 := some (BitVec.ofNat 16 e.offset) }
      { s with status := if e.kind = .asciiString ∧ ∃ x ∈ s.port.ibuf, 0x80 ≤ x.toNat then s.status ||| 0x04#8
                         else s.status }) ∧
    v.length = e.length ∧ (BitVec.ofNat 16 e.offset).toNat = e.offset) ∧
  (∀ (s : State) (k : Half), s.cfg.nf ≤ k.toNat → exec (.eenc k) s = .next (afterFault .schema s)) ∧
  (∀ (s : State) (k : Half) (e : SchemaEntry), s.cfg.schema[k.toNat]? = some e →
    encodeField e.kind e.length s.port.ibuf = none → exec (.eenc k) s = .next (afterFault .valueLength s)) ∧
  (∀ (s : State) (k : Half) (e : SchemaEntry) (b v : List Byte), s.cfg.wf = true →
    s.cfg.schema[k.toNat]? = some e → s.record = some b → b.length = s.cfg.recLen →
    encodeField e.kind e.length s.port.ibuf = some v →
    ∃ t u r off, exec (.eset k) s = .next t ∧ exec (.eenc k) s = .next u ∧ u.result = some r ∧ r.r16 = some off ∧
      ∀ i, t.recByte i =
        if off.toNat ≤ i ∧ i < off.toNat + r.olen then r.obuf[i - off.toNat]? else s.recByte i)

/-- 43_eeprom_record R170, R173: the rows of the two tables, and that each inverts the other. -/
def Obligations.FieldCodecsInvertEachOther : Prop :=
  (∀ (n : Nat) (v : List Byte), encodeField .scalarU8 n v = if v.length = 1 then some v else none) ∧
  (∀ (n : Nat) (v : List Byte), encodeField .asciiString n v =
    if v.length ≤ n then some (v ++ List.replicate (n - v.length) 0x00) else none) ∧
  (∀ (k : Kind) (n : Nat) (v : List Byte), k = .byteArray ∨ k = .opaqueBlock →
    encodeField k n v = if v.length = n then some v else none) ∧
  (∀ (k : Kind) (s : List Byte), k ≠ .asciiString → decodeField k s = s) ∧
  (∀ s : List Byte, ∃ z, s = decodeField .asciiString s ++ List.replicate z 0x00 ∧
    (decodeField .asciiString s).getLast? ≠ some 0x00) ∧
  (∀ (k : Kind) (v : List Byte), nonAscii k v = true ↔ k = .asciiString ∧ ∃ x ∈ v, 0x80 ≤ x.toNat) ∧
  (∀ (k : Kind) (s : List Byte), (k = .scalarU8 → s.length = 1) →
    encodeField k s.length (decodeField k s) = some s) ∧
  (∀ (k : Kind) (n : Nat) (v bytes : List Byte), encodeField k n v = some bytes →
    decodeField k bytes = if k = .asciiString then rtrim0 v else v)

/-- 43_eeprom_record R179: loading and storing gives the block back, so does reading and rewriting any fields in any
order, and so does patching a copy with the encoded values of the decoded fields. -/
def Obligations.RecordRoundTrip : Prop :=
  ∀ (s : State) (w : CmdWord) (b : List Byte), s.cfg.wf = true → b.length = s.cfg.recLen →
    ∃ t, exec .eload (s.withPort ⟨w, b⟩) = .next t ∧
      (∃ u, exec .estore t = .next u ∧ u.result = some { err := 0, obuf := b }) ∧
      (∀ ks : List Half, (∀ k ∈ ks, k.toNat < s.cfg.nf) →
        ∃ t' u, rewriteFields ks t = some t' ∧ exec .estore t' = .next u ∧ u.result = some { err := 0, obuf := b }) ∧
      (∃ (d : State) (fs : List FieldValue), exec .edec (s.withPort ⟨w, b⟩) = .next d ∧ d.result = some { err := 0, fields := some fs } ∧
        ∀ (k : Half) (f : FieldValue), fs[k.toNat]? = some f →
          ∃ u bytes off, exec (.eenc k) (s.withPort ⟨w, f.value⟩) = .next u ∧
            u.result = some { err := 0, obuf := bytes, r16 := some off } ∧
            memWrite b off.toNat bytes = some b)

/-- 43_eeprom_record R180: after an `ESET` of a field, `EGET` of it gives the value set (a string without its trailing
zeros) and `EGET` of every other field gives what it gave before. -/
def Obligations.ReadAfterFieldWrite : Prop :=
  ∀ (s : State) (k : Half) (e : SchemaEntry) (b v : List Byte), s.cfg.wf = true →
    s.cfg.schema[k.toNat]? = some e → s.record = some b → b.length = s.cfg.recLen →
    encodeField e.kind e.length s.port.ibuf = some v →
    ∃ t, exec (.eset k) s = .next t ∧
      (∃ u r, exec (.eget k) t = .next u ∧ u.result = some r ∧ r.err = 0 ∧
        r.obuf = if e.kind = .asciiString then rtrim0 s.port.ibuf else s.port.ibuf) ∧
      (∀ j : Half, j ≠ k → j.toNat < s.cfg.nf → ∃ u u', exec (.eget j) s = .next u ∧ exec (.eget j) t = .next u' ∧
        u'.result = u.result)

/-- 43_eeprom_record R175: bytes that no field covers are never written by `ESET` and never read by `EGET`: changing one
of them changes nothing `EGET` gives. -/
def Obligations.UncoveredBytesAreCarried : Prop :=
  ∀ (s : State) (i : Nat) (k : Half), s.cfg.wf = true → s.recordOk = true →
    (∀ e ∈ s.cfg.schema, i < e.offset ∨ e.offset + e.length ≤ i) →
    (∀ t, exec (.eset k) s = .next t → t.recByte i = s.recByte i) ∧
    (∀ (b : List Byte) (x : Byte), s.record = some b → ∃ u u', exec (.eget k) s = .next u ∧
      exec (.eget k) (s.withRecord (b.set i x)) = .next u' ∧ u'.result = u.result)

/-! ### Four-way frame codec -/

/-- 44_fourway_frame_codec R200, R201, R202: both forms, byte by byte, or TooManyParametersError. -/
def Obligations.FourWayEncodersBuildFrames : Prop :=
  (∀ w, opOf w = 0x60 → decode w = .instr (.fencC (aOf w) (wOf w))) ∧
  (∀ w, opOf w = 0x61 → decode w = .instr (.fencR (aOf w) (bOf w) (wOf w))) ∧
  (∀ (s : State) (a k : Byte) (w : Half) (q body : List Byte), s.port.ibuf.length ≤ 256 →
    q = (if s.port.ibuf = [] then [0x00] else s.port.ibuf) →
    body = [0x2F, a, hi8 w, lo8 w, BitVec.ofNat 8 q.length] ++ q →
    exec (.fencC a w) s =
      .next (afterOk { err := 0, obuf := body ++ [hi8 (crc16 body), lo8 (crc16 body)] } s) ∧
    exec (.fencR a k w) s = .next (afterOk
      { err := 0, obuf := body ++ [k] ++ [hi8 (crc16 (body ++ [k])), lo8 (crc16 (body ++ [k]))] } s)) ∧
  (∀ (s : State) (a k : Byte) (w : Half), 256 < s.port.ibuf.length →
    exec (.fencC a w) s = .next (afterFault .tooManyParameters s) ∧
    exec (.fencR a k w) s = .next (afterFault .tooManyParameters s))

/-- 44_fourway_frame_codec R206: the three tests in order, then every field of the frame. -/
def Obligations.FdecTakesResponseFormApart : Prop :=
  (∀ w, opOf w = 0x62 → decode w = .instr .fdec) ∧
  (∀ s : State, s.port.ibuf.length < 9 → exec .fdec s = .next (afterFault .shortFrame s)) ∧
  (∀ (s : State) (n : Nat), 9 ≤ s.port.ibuf.length → n = countOf (s.port.ibuf.getD 4 0) →
    s.port.ibuf.length < 8 + n → exec .fdec s = .next (afterFault .shortFrame s)) ∧
  (∀ (s : State) (n : Nat) (recv : Half), n = countOf (s.port.ibuf.getD 4 0) → 8 + n ≤ s.port.ibuf.length →
    recv = be16 (s.port.ibuf.getD (6 + n) 0) (s.port.ibuf.getD (7 + n) 0) →
    crc16 (slice s.port.ibuf 0 (6 + n)) ≠ recv → exec .fdec s = .next (afterFault .checksum s)) ∧
  (∀ (s : State) (n : Nat) (recv : Half), n = countOf (s.port.ibuf.getD 4 0) → 8 + n ≤ s.port.ibuf.length →
    recv = be16 (s.port.ibuf.getD (6 + n) 0) (s.port.ibuf.getD (7 + n) 0) →
    crc16 (slice s.port.ibuf 0 (6 + n)) = recv →
    exec .fdec s = .next (afterOk
      { err := 0, sent := s.port.ibuf[0]?, cmd := s.port.ibuf[1]?
        addr := some (be16 (s.port.ibuf.getD 2 0) (s.port.ibuf.getD 3 0)), count := some n
        obuf := slice s.port.ibuf 5 (5 + n), ack := s.port.ibuf[5 + n]?, crc := some recv, used := some (8 + n)
        trail := some (decide (8 + n < s.port.ibuf.length)) } s))

/-- 44_fourway_frame_codec R209: what `FENC.R` builds, `FDEC` takes apart, an empty list as the one parameter 0x00; the
command form agrees with it in its first bytes. -/
def Obligations.FourWayRoundTrip : Prop :=
  ∀ (s : State) (c k : Byte) (a : Half) (w v : CmdWord) (q p : List Byte), q.length ≤ 256 →
    p = (if q = [] then [0x00] else q) →
    ∃ t r tc rc u, exec (.fencR c k a) (s.withPort ⟨w, q⟩) = .next t ∧ t.result = some r ∧
      exec (.fencC c a) (s.withPort ⟨w, q⟩) = .next tc ∧ tc.result = some rc ∧
      rc.obuf.take (p.length + 5) = r.obuf.take (p.length + 5) ∧
      exec .fdec (t.withPort ⟨v, r.obuf⟩) = .next u ∧
      ∃ crc, u.result = some
        { err := 0, sent := some 0x2F, cmd := some c, addr := some a, count := some p.length, obuf := p, ack := some k
          crc := some crc, used := some (p.length + 8), trail := some false }

/-- 00_scope R16 and 44_fourway_frame_codec R210: the count byte, both ways, and as the encoders write it. -/
def Obligations.CountByteConvention : Prop :=
  (∀ n, 1 ≤ n → n ≤ 256 → countOf (countByte n) = n ∧ (countByte n).toNat = n % 256) ∧
  (∀ c : Byte, countByte (countOf c) = c ∧ countOf c = if c.toNat = 0 then 256 else c.toNat) ∧
  (∀ (s : State) (a k : Byte) (w : Half) (n : Nat), s.port.ibuf.length = n → 1 ≤ n → n ≤ 256 →
    ∃ t r t' r', exec (.fencC a w) s = .next t ∧ t.result = some r ∧ r.obuf[4]? = some (BitVec.ofNat 8 n) ∧
      exec (.fencR a k w) s = .next t' ∧ t'.result = some r' ∧ r'.obuf[4]? = some (BitVec.ofNat 8 n)) ∧
  (∀ (s t : State) (r : Result), s.port.ibuf[4]? = some 0x00 → exec .fdec s = .next t → t.result = some r →
    r.err = 0 → r.count = some 256 ∧ r.olen = 256)

/-- 44_fourway_frame_codec R211: a response-form frame with one byte other than its count byte changed makes `FDEC` raise
ChecksumError; a changed count byte that asks for more bytes than are there makes it raise ShortFrameError. -/
def Obligations.FourWaySingleByteChangeRejected : Prop :=
  ∀ (s : State) (c k b old : Byte) (a : Half) (w v : CmdWord) (q : List Byte) (i : Nat), q.length ≤ 256 →
    ∃ t r, exec (.fencR c k a) (s.withPort ⟨w, q⟩) = .next t ∧ t.result = some r ∧
      (i ≠ 4 → r.obuf[i]? = some old → b ≠ old →
        exec .fdec (t.withPort ⟨v, r.obuf.set i b⟩) =
          .next (afterFault .checksum (t.withPort ⟨v, r.obuf.set i b⟩))) ∧
      (r.obuf.length < 8 + countOf b →
        exec .fdec (t.withPort ⟨v, r.obuf.set 4 b⟩) =
          .next (afterFault .shortFrame (t.withPort ⟨v, r.obuf.set 4 b⟩)))

/-- 44_fourway_frame_codec R207 (e) and 70_reset_and_hazards R285: `FDEC` given a command-form frame alone raises
ShortFrameError; with bytes behind it, it ends `ok` exactly when the first of them is 0x00, and then shows the high CRC
byte as the ack. -/
def Obligations.CommandFormGivenToFdec : Prop :=
  (∀ (c : Half), crc16Step c (hi8 c) = (lo8 c).setWidth 16 <<< 8) ∧
  ∀ (s : State) (c : Byte) (a : Half) (w v : CmdWord) (q p rest : List Byte) (x : Byte), q.length ≤ 256 →
    p = (if q = [] then [0x00] else q) →
    ∃ t r u, exec (.fencC c a) (s.withPort ⟨w, q⟩) = .next t ∧ t.result = some r ∧
      exec .fdec (t.withPort ⟨v, r.obuf⟩) = .next u ∧ u.result = some { err := 0x04 } ∧
      (x ≠ 0x00 → ∃ y, exec .fdec (t.withPort ⟨v, r.obuf ++ x :: rest⟩) = .next y ∧
        y.result = some { err := 0x05 }) ∧
      (x = 0x00 → ∃ y r', exec .fdec (t.withPort ⟨v, r.obuf ++ x :: rest⟩) = .next y ∧ y.result = some r' ∧
        r'.err = 0 ∧ r'.obuf = p ∧ r'.ack = r.obuf[p.length + 5]? ∧
        r'.crc = (r.obuf[p.length + 6]?).map (fun l => be16 l 0x00))

/-! ### Faults and flags -/

/-- 60_exceptions R246: an operation that faults changes nothing but `LASTERR`, `STATUS.FAULT` and the result port, which
carries the code, no output byte and no other field; the same of a whole step, a reserved select code included. That the
step puts the command on the port and takes it from the commands to come is the model's choice (logs 1 and 6). -/
def Obligations.FaultsChangeNothingElse : Prop :=
  (∀ (i : Instr) (s t : State) (r : Result), exec i s = .next t → t.result = some r → r.err ≠ 0 →
    r = { err := r.err } ∧
    t = { s with lasterr := r.err, status := s.status ||| 0x08#8, result := some r }) ∧
  (∀ (s t : State) (r : Result) (c : Command) (cs : List Command), s.pending = c :: cs → step s = .next t →
    t.result = some r → r.err ≠ 0 →
    r = { err := r.err } ∧
    t = { s with port := c, pending := cs, lasterr := r.err, status := s.status ||| 0x08#8, result := some r })

/-- 60_exceptions R242: the operations that never fault always end `ok`. -/
def Obligations.OperationsThatNeverFault : Prop :=
  ∀ (s : State) (a b : Byte) (i : Instr),
    i ∈ [.nop, .srst, .sclr, .xclr, .xabs a, .xsum a b, .cinit, .cabs a, .csum, .mdec, .prst, .pfeed a, .pfeedn] →
    ∃ t r, exec i s = .next t ∧ t.result = some r ∧ r.err = 0

/-- 10_state R35: after every operation `LASTERR` is the code on the result port, and nothing reads the old value. -/
def Obligations.LasterrIsErrOfLastOperation : Prop :=
  (∀ (i : Instr) (s t : State), exec i s = .next t → ∃ r, t.result = some r ∧ t.lasterr = r.err) ∧
  (∀ (i : Instr) (s : State) (x : Byte), exec i { s with lasterr := x } = exec i s)

/-- 10_state R34: a flag, once set, stays until `SCLR` or `SRST`; bits 7:4 are never set; a flag is set only by the
operations its row names. -/
def Obligations.StatusFlagsAreSticky : Prop :=
  ∀ (i : Instr) (s t : State), exec i s = .next t →
    (i = .sclr ∨ i = .srst → t.status = 0x00) ∧
    (i ≠ .sclr → i ≠ .srst → ∀ n, s.status.getLsbD n = true → t.status.getLsbD n = true) ∧
    (∀ n, 4 ≤ n → t.status.getLsbD n = true → s.status.getLsbD n = true) ∧
    (∀ n, n < 2 → s.status.getLsbD n = false → t.status.getLsbD n = true →
      i = .mdec ∨ i = .pfeedn ∨ ∃ a, i = .pfeed a) ∧
    (s.status.getLsbD 2 = false → t.status.getLsbD 2 = true →
      i = .edec ∨ ∃ k, i = .eget k ∨ i = .eset k ∨ i = .eenc k) ∧
    (s.status.getLsbD 3 = false → (t.status.getLsbD 3 = true ↔ t.lasterr ≠ 0x00))

/-- 10_state R22 to R24, R32, R33: which operations write which register; every other register keeps its value. -/
def Obligations.RegistersHaveTheirWritersOnly : Prop :=
  ∀ (i : Instr) (s t : State), exec i s = .next t →
    (t.xacc = s.xacc ∨ i = .srst ∨ i = .xclr ∨ ∃ a, i = .xabs a) ∧
    (t.crcr = s.crcr ∨ i = .srst ∨ i = .cinit ∨ ∃ a, i = .cabs a) ∧
    (t.parser = s.parser ∨ i = .srst ∨ i = .prst ∨ i = .pfeedn ∨ ∃ a, i = .pfeed a) ∧
    (t.record = s.record ∨ i = .srst ∨ i = .eload ∨ ∃ k, i = .eset k) ∧
    (t.record = none → s.record = none ∨ i = .srst) ∧
    t.port = s.port ∧ t.pending = s.pending

/-! ### The whole machine -/

/-- 10_state R37 and 70_reset_and_hazards R270: the state after hardware reset, for every configuration the block can be
built with, and the same values after `SRST`; the configuration is untouched. That `SRST` keeps the command port and the
commands to come is the model's choice (log 17, with logs 1 and 6). -/
def Obligations.ResetValues : Prop :=
  (∀ cfg : Config, (State.resetWith cfg).xacc = 0x00 ∧ (State.resetWith cfg).crcr = 0x0000 ∧
    (State.resetWith cfg).parser = ⟨.seekDollar, 0x00, 0x00, 0x00, 0x00, []⟩ ∧
    (State.resetWith cfg).recv = false ∧ (State.resetWith cfg).status = 0x00 ∧ (State.resetWith cfg).lasterr = 0x00 ∧
    (State.resetWith cfg).cfg = cfg ∧ State.reset = State.resetWith State.reset.cfg) ∧
  (∀ s : State, exec .srst s =
    .next (afterOk { err := 0 } { State.resetWith s.cfg with port := s.port, pending := s.pending }))

/-- 10_state R38: the invariant holds after reset, whatever well-formed configuration the block is built with, and in
`State.reset` (log 4). -/
def Obligations.ResetMeetsStateInvariant : Prop :=
  (∀ cfg : Config, cfg.wf = true → (State.resetWith cfg).inv = true) ∧ State.reset.inv = true

/-- 10_state R38, R32, R34, R35: every step keeps the invariant. -/
def Obligations.StepKeepsStateInvariant : Prop :=
  ∀ s t : State, s.inv = true → step s = .next t → t.inv = true

/-- 20_memory R59: no access outside a buffer can occur, so no step from a state that meets the invariant faults. -/
def Obligations.NoAccessOutsideBuffer : Prop :=
  (∀ s : State, s.inv = true → ¬ stepFaults s) ∧
  (∀ (s : State) (i : Instr), s.inv = true → ∃ t, exec i s = .next t)

/-- 10_state R21: no step changes the configuration. -/
def Obligations.ConfigurationIsFixed : Prop := ∀ s t : State, step s = .next t → t.cfg = s.cfg

/-- 20_memory R53: the output of an operation fits the output buffer. -/
def Obligations.OutputFitsOutputBuffer : Prop :=
  ∀ (s t : State), s.inv = true → s.pending ≠ [] → step s = .next t →
    ∃ r, t.result = some r ∧ r.olen ≤ max 264 s.cfg.recLen ∧ r.olen ≤ s.cfg.obufSize

/-- 10_state R21, 92_eei_decisions D2: no operation reads an earlier result, and none reads what the host will present
later (logs 1 and 2: the model's own port fields). -/
def Obligations.OperationsReadNoEarlierResult : Prop :=
  (∀ (i : Instr) (s : State) (o : Option Result), exec i { s with result := o } = exec i s) ∧
  (∀ (i : Instr) (s : State) (q : List Command),
    exec i { s with pending := q } = mapNext (fun t => { t with pending := q }) (exec i s))
end

