-- ==== Sys2Proof/Laws/Config.lean ====
section
/-! SUPPORT. What a well-formed configuration gives (00_scope R6, R7). -/

namespace Sys2Proof

/-- The sizes of a well-formed configuration (00_scope R6). -/
theorem Config.wf_sizes {c : Config} (h : c.wf = true) :
    1 ≤ c.recLen ∧ c.recLen ≤ 65536 ∧ c.nf ≤ 65536 ∧ max 264 c.recLen ≤ c.ibufSize ∧ max 264 c.recLen ≤ c.obufSize := by
  simp only [Config.wf, Bool.and_eq_true, decide_eq_true_eq] at h
  tauto

/-- Each field of a well-formed schema is not empty, lies inside the record, and is one byte if it is a scalar
(00_scope R7 (a), (b), (d)). -/
theorem Config.wf_entry {c : Config} (h : c.wf = true) {e : SchemaEntry} (he : e ∈ c.schema) :
    1 ≤ e.length ∧ e.offset + e.length ≤ c.recLen ∧ (e.kind = .scalarU8 → e.length = 1) := by
  simp only [Config.wf, schemaWf, Bool.and_eq_true, List.all_eq_true] at h
  have := h.2.1 e he
  simp only [SchemaEntry.wf, Bool.and_eq_true, Bool.or_eq_true, decide_eq_true_eq] at this
  tauto

theorem SchemaEntry.disjoint_comm (e f : SchemaEntry) : e.disjoint f = f.disjoint e :=
  Bool.or_comm ..

theorem fieldsDisjoint_getElem? {es : List SchemaEntry} (h : fieldsDisjoint es = true) {i j : Nat}
    {e f : SchemaEntry} (hi : es[i]? = some e) (hj : es[j]? = some f) (hij : i < j) : e.disjoint f = true := by
  induction es generalizing i j with
  | nil => cases hi
  | cons a as ih =>
    simp only [fieldsDisjoint, Bool.and_eq_true, List.all_eq_true] at h
    cases j with
    | zero => omega
    | succ j =>
      rw [List.getElem?_cons_succ] at hj
      cases i with
      | zero =>
        cases hi
        exact h.1 f (List.mem_of_getElem? hj)
      | succ i =>
        rw [List.getElem?_cons_succ] at hi
        exact ih h.2 hi hj (by omega)

/-- Two distinct fields share no byte (00_scope R7 (e)). -/
theorem Config.wf_disjoint {c : Config} (h : c.wf = true) {i j : Nat} {e f : SchemaEntry}
    (hi : c.schema[i]? = some e) (hj : c.schema[j]? = some f) (hij : i ≠ j) :
    e.offset + e.length ≤ f.offset ∨ f.offset + f.length ≤ e.offset := by
  simp only [Config.wf, schemaWf, Bool.and_eq_true] at h
  have hd : e.disjoint f = true := by
    rcases Nat.lt_or_gt_of_ne hij with hlt | hgt
    · exact fieldsDisjoint_getElem? h.2.2 hi hj hlt
    · rw [SchemaEntry.disjoint_comm]
      exact fieldsDisjoint_getElem? h.2.2 hj hi hgt
  simpa [SchemaEntry.disjoint] using hd

end Sys2Proof
end

