-- ==== Sys2Proof/Laws/Decode.lean ====
section
/-! SUPPORT. The fields of a packed command word. -/

namespace Sys2Proof

/-- The word read as a number (30_encoding R70). -/
theorem pack_toNat (op a b : Byte) (w : Half) :
    (pack op a b w).toNat = op.toNat * 2 ^ 32 + a.toNat * 2 ^ 24 + b.toNat * 2 ^ 16 + w.toNat := by
  have h1 := op.isLt
  have h2 := a.isLt
  have h3 := b.isLt
  have h4 := w.isLt
  simp only [pack, BitVec.toNat_or, BitVec.toNat_shiftLeft, BitVec.toNat_setWidth]
  rw [Nat.mod_eq_of_lt (a := op.toNat) (by omega), Nat.mod_eq_of_lt (a := a.toNat) (by omega),
    Nat.mod_eq_of_lt (a := b.toNat) (by omega), Nat.mod_eq_of_lt (a := w.toNat) (by omega)]
  simp only [Nat.shiftLeft_eq]
  rw [Nat.mod_eq_of_lt (by omega), Nat.mod_eq_of_lt (by omega), Nat.mod_eq_of_lt (by omega)]
  have e1 : op.toNat * 2 ^ 32 ||| a.toNat * 2 ^ 24 = (op.toNat * 2 ^ 8 + a.toNat) * 2 ^ 24 := by
    rw [Nat.mul_comm op.toNat, ← Nat.two_pow_add_eq_or_of_lt (by omega)]; omega
  have e2 : (op.toNat * 2 ^ 8 + a.toNat) * 2 ^ 24 ||| b.toNat * 2 ^ 16 =
      ((op.toNat * 2 ^ 8 + a.toNat) * 2 ^ 8 + b.toNat) * 2 ^ 16 := by
    rw [Nat.mul_comm _ (2 ^ 24), ← Nat.two_pow_add_eq_or_of_lt (by omega)]; omega
  rw [e1, e2, Nat.mul_comm _ (2 ^ 16), ← Nat.two_pow_add_eq_or_of_lt (by omega)]
  omega

@[simp] theorem opOf_pack (op a b : Byte) (w : Half) : opOf (pack op a b w) = op := by
  apply BitVec.eq_of_toNat_eq
  have := op.isLt; have := a.isLt; have := b.isLt; have := w.isLt
  simp only [opOf, BitVec.extractLsb'_toNat, pack_toNat, Nat.shiftRight_eq_div_pow]; omega

@[simp] theorem aOf_pack (op a b : Byte) (w : Half) : aOf (pack op a b w) = a := by
  apply BitVec.eq_of_toNat_eq
  have := op.isLt; have := a.isLt; have := b.isLt; have := w.isLt
  simp only [aOf, BitVec.extractLsb'_toNat, pack_toNat, Nat.shiftRight_eq_div_pow]; omega

@[simp] theorem bOf_pack (op a b : Byte) (w : Half) : bOf (pack op a b w) = b := by
  apply BitVec.eq_of_toNat_eq
  have := op.isLt; have := a.isLt; have := b.isLt; have := w.isLt
  simp only [bOf, BitVec.extractLsb'_toNat, pack_toNat, Nat.shiftRight_eq_div_pow]; omega

@[simp] theorem wOf_pack (op a b : Byte) (w : Half) : wOf (pack op a b w) = w := by
  apply BitVec.eq_of_toNat_eq
  have := op.isLt; have := a.isLt; have := b.isLt; have := w.isLt
  simp only [wOf, BitVec.extractLsb'_toNat, pack_toNat, Nat.shiftRight_eq_div_pow]; omega

/-- Packed words are masked field by field. -/
theorem pack_and (op a b m1 m2 m3 : Byte) (w m4 : Half) :
    pack op a b w &&& pack m1 m2 m3 m4 = pack (op &&& m1) (a &&& m2) (b &&& m3) (w &&& m4) := by
  ext i hi
  simp only [pack, BitVec.getElem_and, BitVec.getElem_or, BitVec.getElem_shiftLeft, BitVec.getElem_setWidth,
    BitVec.getLsbD_and]
  rcases Nat.lt_or_ge i 16 with h | h
  · have h1 : i < 24 := by omega
    have h2 : i < 32 := by omega
    simp [h, h1, h2]
  · have hw : ∀ v : Half, v.getLsbD i = false := fun v => BitVec.getLsbD_of_ge _ _ h
    rcases Nat.lt_or_ge i 24 with h' | h'
    · have h2 : i < 32 := by omega
      simp [hw, h', h2, Nat.not_lt.mpr h]
    · have hb : ∀ v : Byte, v.getLsbD (i - 16) = false := fun v => BitVec.getLsbD_of_ge _ _ (by omega)
      rcases Nat.lt_or_ge i 32 with h3 | h3
      · simp [hw, hb, h3, Nat.not_lt.mpr h']
      · have ha : ∀ v : Byte, v.getLsbD (i - 24) = false := fun v => BitVec.getLsbD_of_ge _ _ (by omega)
        simp [hw, hb, ha, Nat.not_lt.mpr h3]

end Sys2Proof
end

