-- ==== Sys2Proof/Laws/State.lean ====
section
/-! SUPPORT. One lemma per field per update of the state, so that no proof unfolds a record update. -/

namespace Sys2Proof.Machine

section withXacc
variable (s : State) (v : Byte)
@[simp] theorem State.withXacc_xacc : (s.withXacc v).xacc = v := rfl
@[simp] theorem State.withXacc_crcr : (s.withXacc v).crcr = s.crcr := rfl
@[simp] theorem State.withXacc_parser : (s.withXacc v).parser = s.parser := rfl
@[simp] theorem State.withXacc_record : (s.withXacc v).record = s.record := rfl
@[simp] theorem State.withXacc_status : (s.withXacc v).status = s.status := rfl
@[simp] theorem State.withXacc_lasterr : (s.withXacc v).lasterr = s.lasterr := rfl
@[simp] theorem State.withXacc_cfg : (s.withXacc v).cfg = s.cfg := rfl
@[simp] theorem State.withXacc_port : (s.withXacc v).port = s.port := rfl
@[simp] theorem State.withXacc_pending : (s.withXacc v).pending = s.pending := rfl
@[simp] theorem State.withXacc_result : (s.withXacc v).result = s.result := rfl
end withXacc

section withCrcr
variable (s : State) (v : Half)
@[simp] theorem State.withCrcr_xacc : (s.withCrcr v).xacc = s.xacc := rfl
@[simp] theorem State.withCrcr_crcr : (s.withCrcr v).crcr = v := rfl
@[simp] theorem State.withCrcr_parser : (s.withCrcr v).parser = s.parser := rfl
@[simp] theorem State.withCrcr_record : (s.withCrcr v).record = s.record := rfl
@[simp] theorem State.withCrcr_status : (s.withCrcr v).status = s.status := rfl
@[simp] theorem State.withCrcr_lasterr : (s.withCrcr v).lasterr = s.lasterr := rfl
@[simp] theorem State.withCrcr_cfg : (s.withCrcr v).cfg = s.cfg := rfl
@[simp] theorem State.withCrcr_port : (s.withCrcr v).port = s.port := rfl
@[simp] theorem State.withCrcr_pending : (s.withCrcr v).pending = s.pending := rfl
@[simp] theorem State.withCrcr_result : (s.withCrcr v).result = s.result := rfl
end withCrcr

section withParser
variable (s : State) (p : Parser)
@[simp] theorem State.withParser_xacc : (s.withParser p).xacc = s.xacc := rfl
@[simp] theorem State.withParser_crcr : (s.withParser p).crcr = s.crcr := rfl
@[simp] theorem State.withParser_parser : (s.withParser p).parser = p := rfl
@[simp] theorem State.withParser_record : (s.withParser p).record = s.record := rfl
@[simp] theorem State.withParser_status : (s.withParser p).status = s.status := rfl
@[simp] theorem State.withParser_lasterr : (s.withParser p).lasterr = s.lasterr := rfl
@[simp] theorem State.withParser_cfg : (s.withParser p).cfg = s.cfg := rfl
@[simp] theorem State.withParser_port : (s.withParser p).port = s.port := rfl
@[simp] theorem State.withParser_pending : (s.withParser p).pending = s.pending := rfl
@[simp] theorem State.withParser_result : (s.withParser p).result = s.result := rfl
end withParser

section withRecord
variable (s : State) (b : List Byte)
@[simp] theorem State.withRecord_xacc : (s.withRecord b).xacc = s.xacc := rfl
@[simp] theorem State.withRecord_crcr : (s.withRecord b).crcr = s.crcr := rfl
@[simp] theorem State.withRecord_parser : (s.withRecord b).parser = s.parser := rfl
@[simp] theorem State.withRecord_record : (s.withRecord b).record = some b := rfl
@[simp] theorem State.withRecord_status : (s.withRecord b).status = s.status := rfl
@[simp] theorem State.withRecord_lasterr : (s.withRecord b).lasterr = s.lasterr := rfl
@[simp] theorem State.withRecord_cfg : (s.withRecord b).cfg = s.cfg := rfl
@[simp] theorem State.withRecord_port : (s.withRecord b).port = s.port := rfl
@[simp] theorem State.withRecord_pending : (s.withRecord b).pending = s.pending := rfl
@[simp] theorem State.withRecord_result : (s.withRecord b).result = s.result := rfl
end withRecord

section withStatus
variable (s : State) (v : Byte)
@[simp] theorem State.withStatus_xacc : (s.withStatus v).xacc = s.xacc := rfl
@[simp] theorem State.withStatus_crcr : (s.withStatus v).crcr = s.crcr := rfl
@[simp] theorem State.withStatus_parser : (s.withStatus v).parser = s.parser := rfl
@[simp] theorem State.withStatus_record : (s.withStatus v).record = s.record := rfl
@[simp] theorem State.withStatus_status : (s.withStatus v).status = v := rfl
@[simp] theorem State.withStatus_lasterr : (s.withStatus v).lasterr = s.lasterr := rfl
@[simp] theorem State.withStatus_cfg : (s.withStatus v).cfg = s.cfg := rfl
@[simp] theorem State.withStatus_port : (s.withStatus v).port = s.port := rfl
@[simp] theorem State.withStatus_pending : (s.withStatus v).pending = s.pending := rfl
@[simp] theorem State.withStatus_result : (s.withStatus v).result = s.result := rfl
end withStatus

section withLasterr
variable (s : State) (v : Byte)
@[simp] theorem State.withLasterr_xacc : (s.withLasterr v).xacc = s.xacc := rfl
@[simp] theorem State.withLasterr_crcr : (s.withLasterr v).crcr = s.crcr := rfl
@[simp] theorem State.withLasterr_parser : (s.withLasterr v).parser = s.parser := rfl
@[simp] theorem State.withLasterr_record : (s.withLasterr v).record = s.record := rfl
@[simp] theorem State.withLasterr_status : (s.withLasterr v).status = s.status := rfl
@[simp] theorem State.withLasterr_lasterr : (s.withLasterr v).lasterr = v := rfl
@[simp] theorem State.withLasterr_cfg : (s.withLasterr v).cfg = s.cfg := rfl
@[simp] theorem State.withLasterr_port : (s.withLasterr v).port = s.port := rfl
@[simp] theorem State.withLasterr_pending : (s.withLasterr v).pending = s.pending := rfl
@[simp] theorem State.withLasterr_result : (s.withLasterr v).result = s.result := rfl
end withLasterr

section withResult
variable (s : State) (r : Result)
@[simp] theorem State.withResult_xacc : (s.withResult r).xacc = s.xacc := rfl
@[simp] theorem State.withResult_crcr : (s.withResult r).crcr = s.crcr := rfl
@[simp] theorem State.withResult_parser : (s.withResult r).parser = s.parser := rfl
@[simp] theorem State.withResult_record : (s.withResult r).record = s.record := rfl
@[simp] theorem State.withResult_status : (s.withResult r).status = s.status := rfl
@[simp] theorem State.withResult_lasterr : (s.withResult r).lasterr = s.lasterr := rfl
@[simp] theorem State.withResult_cfg : (s.withResult r).cfg = s.cfg := rfl
@[simp] theorem State.withResult_port : (s.withResult r).port = s.port := rfl
@[simp] theorem State.withResult_pending : (s.withResult r).pending = s.pending := rfl
@[simp] theorem State.withResult_result : (s.withResult r).result = some r := rfl
end withResult

section withPort
variable (s : State) (c : Command)
@[simp] theorem State.withPort_xacc : (s.withPort c).xacc = s.xacc := rfl
@[simp] theorem State.withPort_crcr : (s.withPort c).crcr = s.crcr := rfl
@[simp] theorem State.withPort_parser : (s.withPort c).parser = s.parser := rfl
@[simp] theorem State.withPort_record : (s.withPort c).record = s.record := rfl
@[simp] theorem State.withPort_status : (s.withPort c).status = s.status := rfl
@[simp] theorem State.withPort_lasterr : (s.withPort c).lasterr = s.lasterr := rfl
@[simp] theorem State.withPort_cfg : (s.withPort c).cfg = s.cfg := rfl
@[simp] theorem State.withPort_port : (s.withPort c).port = c := rfl
@[simp] theorem State.withPort_pending : (s.withPort c).pending = s.pending := rfl
@[simp] theorem State.withPort_result : (s.withPort c).result = s.result := rfl
end withPort

section withPending
variable (s : State) (cs : List Command)
@[simp] theorem State.withPending_xacc : (s.withPending cs).xacc = s.xacc := rfl
@[simp] theorem State.withPending_crcr : (s.withPending cs).crcr = s.crcr := rfl
@[simp] theorem State.withPending_parser : (s.withPending cs).parser = s.parser := rfl
@[simp] theorem State.withPending_record : (s.withPending cs).record = s.record := rfl
@[simp] theorem State.withPending_status : (s.withPending cs).status = s.status := rfl
@[simp] theorem State.withPending_lasterr : (s.withPending cs).lasterr = s.lasterr := rfl
@[simp] theorem State.withPending_cfg : (s.withPending cs).cfg = s.cfg := rfl
@[simp] theorem State.withPending_port : (s.withPending cs).port = s.port := rfl
@[simp] theorem State.withPending_pending : (s.withPending cs).pending = cs := rfl
@[simp] theorem State.withPending_result : (s.withPending cs).result = s.result := rfl
end withPending

section resetRegisters
variable (s : State)
@[simp] theorem State.resetRegisters_xacc : s.resetRegisters.xacc = 0x00 := rfl
@[simp] theorem State.resetRegisters_crcr : s.resetRegisters.crcr = 0x0000 := rfl
@[simp] theorem State.resetRegisters_parser : s.resetRegisters.parser = Parser.idle := rfl
@[simp] theorem State.resetRegisters_record : s.resetRegisters.record = none := rfl
@[simp] theorem State.resetRegisters_status : s.resetRegisters.status = 0x00 := rfl
@[simp] theorem State.resetRegisters_lasterr : s.resetRegisters.lasterr = 0x00 := rfl
@[simp] theorem State.resetRegisters_cfg : s.resetRegisters.cfg = s.cfg := rfl
@[simp] theorem State.resetRegisters_port : s.resetRegisters.port = s.port := rfl
@[simp] theorem State.resetRegisters_pending : s.resetRegisters.pending = s.pending := rfl
@[simp] theorem State.resetRegisters_result : s.resetRegisters.result = s.result := rfl
end resetRegisters

@[simp] theorem State.ibuf_eq (s : State) : s.ibuf = s.port.ibuf := rfl
@[simp] theorem State.ilen_eq (s : State) : s.ilen = s.port.ibuf.length := rfl
@[simp] theorem Result.ok_err : Result.ok.err = 0 := rfl
@[simp] theorem Result.ok_obuf : Result.ok.obuf = [] := rfl

end Sys2Proof.Machine
end

