-- ==== Sys2Proof/Laws/Ops.lean ====
section
/-! SUPPORT. What each shared operation can do, said once: ending an operation, taking a fault, reading and writing a byte
space, the sticky flags, presenting a command. -/

namespace Sys2Proof.Machine

theorem finish_eq (r : Result) (s : State) : finish r s = .next (afterOk r s) := rfl

theorem raise_eq (e : Err) (s : State) : raise e s = .next (afterFault e s) := rfl

theorem finish_next {r : Result} {s t : State} (h : finish r s = .next t) : t = afterOk r s := by
  cases h; rfl

theorem raise_next {e : Err} {s t : State} (h : raise e s = .next t) : t = afterFault e s := by
  cases h; rfl

@[simp] theorem errCode_ne_zero (e : Err) : errCode e ≠ 0 := by cases e <;> decide

theorem errCode_le (e : Err) : (errCode e).toNat ≤ 0x0A := by cases e <;> decide

theorem errCode_injective {e f : Err} (h : errCode e = errCode f) : e = f := by
  revert h; cases e <;> cases f <;> decide

/-- A read answers the bytes asked for, and only inside the space. -/
theorem memRead_eq_some {space v : List Byte} {i n : Nat} :
    memRead space i n = some v ↔ i + n ≤ space.length ∧ v = (space.drop i).take n := by
  unfold memRead; split <;> simp_all [eq_comm]

theorem memRead_length {space v : List Byte} {i n : Nat} (h : memRead space i n = some v) : v.length = n := by
  obtain ⟨hl, rfl⟩ := memRead_eq_some.mp h
  simp only [List.length_take, List.length_drop]; omega

/-- A write answers a space of the same length, and only inside the space. -/
theorem memWrite_eq_some {space v s' : List Byte} {i : Nat} :
    memWrite space i v = some s' ↔
      i + v.length ≤ space.length ∧ s' = space.take i ++ v ++ space.drop (i + v.length) := by
  unfold memWrite; split <;> simp_all [eq_comm]

theorem memWrite_length {space v s' : List Byte} {i : Nat} (h : memWrite space i v = some s') :
    s'.length = space.length := by
  obtain ⟨hl, rfl⟩ := memWrite_eq_some.mp h
  simp only [List.length_append, List.length_take, List.length_drop]; omega

theorem memWrite_inside {space v s' : List Byte} {i j : Nat} (h : memWrite space i v = some s')
    (h1 : i ≤ j) (h2 : j < i + v.length) : s'[j]? = v[j - i]? := by
  obtain ⟨hl, rfl⟩ := memWrite_eq_some.mp h
  have ht : (space.take i).length = i := by rw [List.length_take]; omega
  rw [List.append_assoc, List.getElem?_append_right (by omega), ht, List.getElem?_append_left (by omega)]

theorem memWrite_outside {space v s' : List Byte} {i j : Nat} (h : memWrite space i v = some s')
    (hj : j < i ∨ i + v.length ≤ j) : s'[j]? = space[j]? := by
  obtain ⟨hl, rfl⟩ := memWrite_eq_some.mp h
  have ht : (space.take i).length = i := by rw [List.length_take]; omega
  rcases hj with hj | hj
  · rw [List.append_assoc, List.getElem?_append_left (by omega), List.getElem?_take_of_lt hj]
  · rw [List.getElem?_append_right (by rw [List.length_append]; omega), List.getElem?_drop, List.length_append, ht]
    congr 1; omega

theorem flagBit_lt (f : Flag) : flagBit f < 8 := by cases f <;> decide

/-- Raising a flag sets its bit and keeps every other bit. -/
theorem raiseFlag_getLsbD (f : Flag) (st : Byte) (n : Nat) :
    (raiseFlag f st).getLsbD n = (st.getLsbD n || decide (n = flagBit f)) := by
  have hf := flagBit_lt f
  unfold raiseFlag
  rw [BitVec.getLsbD_or, BitVec.getLsbD_shiftLeft, BitVec.getLsbD_one]
  congr 1
  by_cases h : n = flagBit f
  · simp [h, hf]
  · simp only [h, decide_false]
    by_cases h1 : n < flagBit f
    · simp [h1]
    · have : n - flagBit f ≠ 0 := by omega
      simp [this]

/-- A raised flag keeps bits 7:4 of `STATUS` zero. -/
theorem raiseFlag_lt_sixteen (f : Flag) {st : Byte} (h : st.toNat < 16) : (raiseFlag f st).toNat < 16 := by
  unfold raiseFlag
  rw [BitVec.toNat_or]
  exact Nat.or_lt_two_pow (n := 4) h (by cases f <;> decide)

theorem raiseFlagIf_lt_sixteen (c : Bool) (f : Flag) {st : Byte} (h : st.toNat < 16) :
    (raiseFlagIf c f st).toNat < 16 := by
  unfold raiseFlagIf; split
  · exact raiseFlag_lt_sixteen f h
  · exact h

theorem eventFlags_lt_sixteen (ev : Event) {st : Byte} (h : st.toNat < 16) : (eventFlags st ev).toNat < 16 := by
  cases ev <;> first | exact h | exact raiseFlag_lt_sixteen _ h

theorem eventsFlags_lt_sixteen (evs : List (Nat × Event)) {st : Byte} (h : st.toNat < 16) :
    (eventsFlags st evs).toNat < 16 := by
  induction evs generalizing st with
  | nil => exact h
  | cons e es ih => exact ih (eventFlags_lt_sixteen e.2 h)

/-- What presenting can answer: a refusal of an ill-formed block, nothing, the next command on the port with the rest
still pending, or a refusal of an oversized command. -/
theorem present_cases (s : State) :
    (s.cfg.wf = false ∧ present s = .refuse .illFormedConfig) ∨
    (s.cfg.wf = true ∧ s.pending = [] ∧ present s = .idle) ∨
    (∃ c cs, s.cfg.wf = true ∧ s.pending = c :: cs ∧ c.presentable s.cfg = true ∧
      present s = .command c ((s.withPending cs).withPort c)) ∨
    (∃ c cs, s.cfg.wf = true ∧ s.pending = c :: cs ∧ c.presentable s.cfg = false ∧
      present s = .refuse .notPresentable) := by
  unfold present
  cases hw : s.cfg.wf
  · exact .inl ⟨rfl, rfl⟩
  · cases hp : s.pending with
    | nil => exact .inr (.inl ⟨rfl, rfl, rfl⟩)
    | cons c cs =>
      cases hc : c.presentable s.cfg
      · exact .inr (.inr (.inr ⟨c, cs, rfl, rfl, hc, by simp [hc]⟩))
      · exact .inr (.inr (.inl ⟨c, cs, rfl, rfl, hc, by simp [hc]⟩))

end Sys2Proof.Machine
end

