-- ==== Sys2Proof/Laws/Parser.lean ====
section
/-! SUPPORT. What one byte can do to the MSP stream parser (42_msp_stream_parser R143), and the fold over a buffer. -/

namespace Sys2Proof.Machine

/-- Everything a byte can do: one case per row of the table of R143. -/
theorem pstep_cases (p : Parser) (b : Byte) :
    (p.pst = .seekDollar ∧ b = 0x24 ∧ pstep p b = ({ p with pst := .seekM }, .none)) ∨
    (p.pst = .seekDollar ∧ b ≠ 0x24 ∧ pstep p b = (p, .none)) ∨
    (p.pst = .seekM ∧ b = 0x4D ∧ pstep p b = ({ p with pst := .direction }, .none)) ∨
    (p.pst = .seekM ∧ b ≠ 0x4D ∧ pstep p b = (Parser.idle, .none)) ∨
    (p.pst = .direction ∧ isMarker b = true ∧ pstep p b = ({ p with pdir := b, pst := .length }, .none)) ∨
    (p.pst = .direction ∧ isMarker b = false ∧ pstep p b = (Parser.idle, .badDir b)) ∨
    (p.pst = .length ∧ pstep p b = ({ p with plen := b, pck := b, pst := .command }, .none)) ∨
    (p.pst = .command ∧ p.plen ≠ 0 ∧ pstep p b = ({ p with pcmd := b, pck := p.pck ^^^ b, pst := .payload }, .none)) ∨
    (p.pst = .command ∧ p.plen = 0 ∧ pstep p b = ({ p with pcmd := b, pck := p.pck ^^^ b, pst := .checksum }, .none)) ∨
    (p.pst = .payload ∧ p.pay.length + 1 < p.plen.toNat ∧
      pstep p b = ({ p with pay := p.pay ++ [b], pck := p.pck ^^^ b }, .none)) ∨
    (p.pst = .payload ∧ p.plen.toNat ≤ p.pay.length + 1 ∧
      pstep p b = ({ p with pay := p.pay ++ [b], pck := p.pck ^^^ b, pst := .checksum }, .none)) ∨
    (p.pst = .checksum ∧ b = p.pck ∧ pstep p b = (Parser.idle, .frame ⟨p.pdir, p.pcmd, p.plen, p.pay⟩)) ∨
    (p.pst = .checksum ∧ b ≠ p.pck ∧ pstep p b = (Parser.idle, .ckErr p.pcmd p.pck b)) := by
  obtain ⟨pst, pdir, plen, pcmd, pck, pay⟩ := p
  cases pst with
  | seekDollar => by_cases h : b = 0x24#8 <;> simp [pstep, h]
  | seekM => by_cases h : b = 0x4D#8 <;> simp [pstep, h]
  | direction => cases h : isMarker b <;> simp [pstep, h]
  | length => simp [pstep]
  | command => by_cases h : plen = 0#8 <;> simp [pstep, h]
  | payload =>
    by_cases h : pay.length + 1 < plen.toNat
    · simp [pstep, h]
    · simp [pstep, h, Nat.le_of_not_lt h]
  | checksum => by_cases h : b = pck <;> simp [pstep, h]

@[simp] theorem feedParser_nil (p : Parser) : feedParser p [] = p := rfl

@[simp] theorem feedParser_cons (p : Parser) (b : Byte) (bs : List Byte) :
    feedParser p (b :: bs) = feedParser (pstep p b).1 bs := rfl

@[simp] theorem feedEvents_nil (p : Parser) (i : Nat) : feedEvents p i [] = [] := rfl

theorem feedEvents_cons (p : Parser) (i : Nat) (b : Byte) (bs : List Byte) :
    feedEvents p i (b :: bs) =
      if (pstep p b).2 = .none then feedEvents (pstep p b).1 (i + 1) bs
      else (i, (pstep p b).2) :: feedEvents (pstep p b).1 (i + 1) bs := rfl

/-- The scan of `MDEC`, one byte at a time. -/
theorem mdecScan_cons (p : Parser) (st : Byte) (i : Nat) (b : Byte) (bs : List Byte) :
    mdecScan p st i (b :: bs) =
      match (pstep p b).2 with
      | .frame f => (st, some (f, i + 1))
      | ev => mdecScan (pstep p b).1 (eventFlags st ev) (i + 1) bs := rfl

theorem mdecScan_lt_sixteen (p : Parser) {st : Byte} (i : Nat) (bs : List Byte) (h : st.toNat < 16) :
    (mdecScan p st i bs).1.toNat < 16 := by
  induction bs generalizing p st i with
  | nil => exact h
  | cons b bs ih =>
    rw [mdecScan_cons]
    cases hev : (pstep p b).2 with
    | none => exact ih _ _ (eventFlags_lt_sixteen _ h)
    | frame f => exact h
    | badDir g => exact ih _ _ (eventFlags_lt_sixteen _ h)
    | ckErr c e g => exact ih _ _ (eventFlags_lt_sixteen _ h)

end Sys2Proof.Machine
end

