-- ==== Sys2Proof/Laws/Meanings.lean ====
section
/-! SUPPORT. What a meaning with more than one outcome can do, said once for each: its faults with their conditions, and
the state it ends in. -/

namespace Sys2Proof.Machine

theorem execMenc_cases (d c : Byte) (s : State) :
    (255 < s.ilen ∧ execMenc d c s = raise .payloadTooLong s) ∨
    (s.ilen ≤ 255 ∧ isMarker d = false ∧ execMenc d c s = raise .badDirection s) ∨
    (s.ilen ≤ 255 ∧ isMarker d = true ∧ execMenc d c s = finish { err := 0, obuf := mspFrame d c s.ibuf } s) := by
  unfold execMenc
  by_cases h : 255 < s.ilen
  · exact .inl ⟨h, if_pos h⟩
  · rw [if_neg h]
    cases hd : isMarker d
    · exact .inr (.inl ⟨Nat.le_of_not_lt h, rfl, rfl⟩)
    · exact .inr (.inr ⟨Nat.le_of_not_lt h, rfl, rfl⟩)

theorem execEload_cases (s : State) :
    (s.ilen ≠ s.cfg.recLen ∧ execEload s = raise .recordLength s) ∨
    (s.ilen = s.cfg.recLen ∧ execEload s = finish Result.ok (s.withRecord s.ibuf)) := by
  unfold execEload
  by_cases h : s.ilen = s.cfg.recLen
  · exact .inr ⟨h, if_neg (not_not.mpr h)⟩
  · exact .inl ⟨h, if_pos h⟩

theorem execEget_cases (k : Half) (s : State) :
    (s.cfg.schema[k.toNat]? = none ∧ execEget k s = raise .schema s) ∨
    (∃ e, s.cfg.schema[k.toNat]? = some e ∧ s.record = none ∧ execEget k s = raise .noRecord s) ∨
    (∃ e b, s.cfg.schema[k.toNat]? = some e ∧ s.record = some b ∧ memRead b e.offset e.length = none ∧
      execEget k s = .fault .outsideBuffer) ∨
    (∃ e b v, s.cfg.schema[k.toNat]? = some e ∧ s.record = some b ∧ memRead b e.offset e.length = some v ∧
      execEget k s = finish (egetResult e.kind (decodeField e.kind v))
        (s.withStatus (raiseFlagIf (nonAscii e.kind (decodeField e.kind v)) .nonAscii s.status))) := by
  unfold execEget
  cases he : s.cfg.schema[k.toNat]? with
  | none => exact .inl ⟨rfl, rfl⟩
  | some e =>
    cases hb : s.record with
    | none => exact .inr (.inl ⟨e, rfl, rfl, rfl⟩)
    | some b =>
      cases hv : memRead b e.offset e.length with
      | none => exact .inr (.inr (.inl ⟨e, b, rfl, rfl, hv, by simp only [hv]⟩))
      | some v => exact .inr (.inr (.inr ⟨e, b, v, rfl, rfl, hv, by simp only [hv]⟩))

theorem execEset_cases (k : Half) (s : State) :
    (s.cfg.schema[k.toNat]? = none ∧ execEset k s = raise .schema s) ∨
    (∃ e, s.cfg.schema[k.toNat]? = some e ∧ s.record = none ∧ execEset k s = raise .noRecord s) ∨
    (∃ e b, s.cfg.schema[k.toNat]? = some e ∧ s.record = some b ∧ encodeField e.kind e.length s.ibuf = none ∧
      execEset k s = raise .valueLength s) ∨
    (∃ e b v, s.cfg.schema[k.toNat]? = some e ∧ s.record = some b ∧ encodeField e.kind e.length s.ibuf = some v ∧
      memWrite b e.offset v = none ∧ execEset k s = .fault .outsideBuffer) ∨
    (∃ e b v b', s.cfg.schema[k.toNat]? = some e ∧ s.record = some b ∧ encodeField e.kind e.length s.ibuf = some v ∧
      memWrite b e.offset v = some b' ∧
      execEset k s = finish Result.ok
        ((s.withRecord b').withStatus (raiseFlagIf (nonAscii e.kind s.ibuf) .nonAscii s.status))) := by
  unfold execEset
  cases he : s.cfg.schema[k.toNat]? with
  | none => exact .inl ⟨rfl, rfl⟩
  | some e =>
    cases hb : s.record with
    | none => exact .inr (.inl ⟨e, rfl, rfl, rfl⟩)
    | some b =>
      cases hv : encodeField e.kind e.length s.ibuf with
      | none => exact .inr (.inr (.inl ⟨e, b, rfl, rfl, hv, by simp only [hv]⟩))
      | some v =>
        cases hw : memWrite b e.offset v with
        | none => exact .inr (.inr (.inr (.inl ⟨e, b, v, rfl, rfl, hv, hw, by simp only [hv, hw]⟩)))
        | some b' => exact .inr (.inr (.inr (.inr ⟨e, b, v, b', rfl, rfl, hv, hw, by simp only [hv, hw]⟩)))

theorem execEstore_cases (s : State) :
    (s.record = none ∧ execEstore s = raise .noRecord s) ∨
    (∃ b, s.record = some b ∧ execEstore s = finish { err := 0, obuf := b } s) := by
  unfold execEstore
  cases hb : s.record with
  | none => exact .inl ⟨rfl, rfl⟩
  | some b => exact .inr ⟨b, rfl, rfl⟩

theorem execEdec_cases (s : State) :
    (s.ilen ≠ s.cfg.recLen ∧ execEdec s = raise .recordLength s) ∨
    (s.ilen = s.cfg.recLen ∧ edecFields s.ibuf 0 s.cfg.schema = none ∧ execEdec s = .fault .outsideBuffer) ∨
    (∃ fs, s.ilen = s.cfg.recLen ∧ edecFields s.ibuf 0 s.cfg.schema = some fs ∧
      execEdec s = finish { err := 0, fields := some fs }
        (s.withStatus (raiseFlagIf (fs.any (fun f => nonAscii f.kind f.value)) .nonAscii s.status))) := by
  unfold execEdec
  by_cases h : s.ilen = s.cfg.recLen
  · rw [if_neg (not_not.mpr h)]
    cases hf : edecFields s.ibuf 0 s.cfg.schema with
    | none => exact .inr (.inl ⟨h, rfl, rfl⟩)
    | some fs => exact .inr (.inr ⟨fs, h, rfl, rfl⟩)
  · exact .inl ⟨h, if_pos h⟩

theorem execEenc_cases (k : Half) (s : State) :
    (s.cfg.schema[k.toNat]? = none ∧ execEenc k s = raise .schema s) ∨
    (∃ e, s.cfg.schema[k.toNat]? = some e ∧ encodeField e.kind e.length s.ibuf = none ∧
      execEenc k s = raise .valueLength s) ∨
    (∃ e v, s.cfg.schema[k.toNat]? = some e ∧ encodeField e.kind e.length s.ibuf = some v ∧
      execEenc k s = finish { err := 0, obuf := v, r16 := some (BitVec.ofNat 16 e.offset) }
        (s.withStatus (raiseFlagIf (nonAscii e.kind s.ibuf) .nonAscii s.status))) := by
  unfold execEenc
  cases he : s.cfg.schema[k.toNat]? with
  | none => exact .inl ⟨rfl, rfl⟩
  | some e =>
    cases hv : encodeField e.kind e.length s.ibuf with
    | none => exact .inr (.inl ⟨e, rfl, hv, by simp only [hv]⟩)
    | some v => exact .inr (.inr ⟨e, v, rfl, hv, by simp only [hv]⟩)

theorem execFencC_cases (c : Byte) (a : Half) (s : State) :
    (256 < s.ilen ∧ execFencC c a s = raise .tooManyParameters s) ∨
    (s.ilen ≤ 256 ∧ execFencC c a s = finish { err := 0, obuf := fwCommandForm c a s.ibuf } s) := by
  unfold execFencC
  by_cases h : 256 < s.ilen
  · exact .inl ⟨h, if_pos h⟩
  · exact .inr ⟨Nat.le_of_not_lt h, if_neg h⟩

theorem execFencR_cases (c k : Byte) (a : Half) (s : State) :
    (256 < s.ilen ∧ execFencR c k a s = raise .tooManyParameters s) ∨
    (s.ilen ≤ 256 ∧ execFencR c k a s = finish { err := 0, obuf := fwResponseForm c k a s.ibuf } s) := by
  unfold execFencR
  by_cases h : 256 < s.ilen
  · exact .inl ⟨h, if_pos h⟩
  · exact .inr ⟨Nat.le_of_not_lt h, if_neg h⟩

theorem execFdec_cases (s : State) :
    (s.ilen < 9 ∧ execFdec s = raise .shortFrame s) ∨
    (9 ≤ s.ilen ∧ s.ilen < 8 + countOf (byteAt s.ibuf 4) ∧ execFdec s = raise .shortFrame s) ∨
    (9 ≤ s.ilen ∧ 8 + countOf (byteAt s.ibuf 4) ≤ s.ilen ∧
      crc16 (slice s.ibuf 0 (6 + countOf (byteAt s.ibuf 4))) ≠
        be16 (byteAt s.ibuf (6 + countOf (byteAt s.ibuf 4))) (byteAt s.ibuf (7 + countOf (byteAt s.ibuf 4))) ∧
      execFdec s = raise .checksum s) ∨
    (9 ≤ s.ilen ∧ 8 + countOf (byteAt s.ibuf 4) ≤ s.ilen ∧
      crc16 (slice s.ibuf 0 (6 + countOf (byteAt s.ibuf 4))) =
        be16 (byteAt s.ibuf (6 + countOf (byteAt s.ibuf 4))) (byteAt s.ibuf (7 + countOf (byteAt s.ibuf 4))) ∧
      execFdec s = finish (fdecResult s.ibuf (countOf (byteAt s.ibuf 4))) s) := by
  unfold execFdec
  by_cases h1 : s.ilen < 9
  · exact .inl ⟨h1, if_pos h1⟩
  · rw [if_neg h1]
    have h1' := Nat.le_of_not_lt h1
    by_cases h2 : s.ilen < 8 + countOf (byteAt s.ibuf 4)
    · exact .inr (.inl ⟨h1', h2, if_pos h2⟩)
    · rw [if_neg h2]
      have h2' := Nat.le_of_not_lt h2
      by_cases h3 : crc16 (slice s.ibuf 0 (6 + countOf (byteAt s.ibuf 4))) =
          be16 (byteAt s.ibuf (6 + countOf (byteAt s.ibuf 4))) (byteAt s.ibuf (7 + countOf (byteAt s.ibuf 4)))
      · exact .inr (.inr (.inr ⟨h1', h2', h3, if_neg (not_not.mpr h3)⟩))
      · exact .inr (.inr (.inl ⟨h1', h2', h3, if_pos h3⟩))

end Sys2Proof.Machine
end

