-- ==== Sys2Proof/Laws/Operands.lean ====
section
/-! SUPPORT. Small facts about the byte-sequence functions. -/

namespace Sys2Proof.Machine

@[simp] theorem xorfold_nil : xorfold [] = 0 := rfl

theorem zero_xor_byte (b : Byte) : (0 : Byte) ^^^ b = b := BitVec.zero_xor

theorem foldl_xor (x : Byte) (s : List Byte) : s.foldl (· ^^^ ·) x = x ^^^ xorfold s := by
  unfold xorfold
  induction s generalizing x with
  | nil => simp
  | cons b bs ih =>
    rw [List.foldl_cons, ih, List.foldl_cons, ih (0 ^^^ b), zero_xor_byte, BitVec.xor_assoc]

@[simp] theorem xorfold_cons (b : Byte) (bs : List Byte) : xorfold (b :: bs) = b ^^^ xorfold bs := by
  rw [xorfold, List.foldl_cons, foldl_xor, zero_xor_byte]

@[simp] theorem xorfold_append (s t : List Byte) : xorfold (s ++ t) = xorfold s ^^^ xorfold t := by
  rw [xorfold, List.foldl_append, foldl_xor, foldl_xor, zero_xor_byte]

theorem crc16From_cons (c : Half) (b : Byte) (s : List Byte) :
    crc16From c (b :: s) = crc16From (crc16Step c b) s := rfl

theorem slice_length (s : List Byte) (i j : Nat) : (slice s i j).length = min (j - i) (s.length - i) := by
  simp [slice]

theorem countOf_pos (c : Byte) : 1 ≤ countOf c := by
  unfold countOf; split
  · decide
  · rename_i h
    exact Nat.one_le_iff_ne_zero.mpr fun h0 => h (BitVec.eq_of_toNat_eq h0)

theorem countOf_le (c : Byte) : countOf c ≤ 256 := by
  unfold countOf; split
  · decide
  · have := c.isLt; omega

theorem rtrim0_cons (b : Byte) (bs : List Byte) :
    rtrim0 (b :: bs) = if rtrim0 bs = [] ∧ b = 0 then [] else b :: rtrim0 bs := by
  rw [rtrim0]
  cases rtrim0 bs <;> by_cases h : b = 0 <;> simp [h]

theorem rtrim0_length_le (s : List Byte) : (rtrim0 s).length ≤ s.length := by
  induction s with
  | nil => exact Nat.le_refl 0
  | cons b bs ih =>
    rw [rtrim0_cons]; split
    · exact Nat.zero_le _
    · rw [List.length_cons, List.length_cons]; omega

theorem pad0_length {s : List Byte} {n : Nat} (h : s.length ≤ n) : (pad0 s n).length = n := by
  simp only [pad0, List.length_append, List.length_replicate]; omega

theorem fwParams_length {s : List Byte} (h : s.length ≤ 256) :
    1 ≤ (fwParams s).length ∧ (fwParams s).length ≤ 256 := by
  unfold fwParams; split
  · exact ⟨Nat.le_refl 1, by decide⟩
  · rename_i hs
    exact ⟨List.length_pos_iff.mpr hs, h⟩

end Sys2Proof.Machine
end

