-- ==== Sys2Proof/Laws/PerInstr.lean ====
section
/-! SUPPORT. Statements about every operation as syntax, one lemma per constructor. -/

/-- The encoder puts the operation's select code in `OP`, one of the 23 that 30_encoding R72 assigns, and leaves the
fields the operation does not use zero (92_eei_decisions D33). -/
def Sys2Proof.Laws.EncodedOp.Statement (i : Sys2Proof.Instr) : Prop :=
  Sys2Proof.opOf (Sys2Proof.encode i) = Sys2Proof.opcode i ∧ Sys2Proof.opcode i ∈ Sys2Proof.assignedOps ∧
    Sys2Proof.encode i &&& Sys2Proof.usedBits i = Sys2Proof.encode i

namespace Sys2Proof.Laws.EncodedOp

/-- A packed word keeps every bit under a mask that keeps each of its fields. -/
theorem pack_keep {op a b m2 m3 : Byte} {w m4 : Half} (ha : a &&& m2 = a) (hb : b &&& m3 = b) (hw : w &&& m4 = w) :
    pack op a b w &&& pack 0xFF m2 m3 m4 = pack op a b w := by
  rw [pack_and, ha, hb, hw, show op &&& 0xFF = op from BitVec.and_allOnes]

theorem and_ff (a : Byte) : a &&& 0xFF = a := BitVec.and_allOnes

theorem and_ffff (w : Half) : w &&& 0xFFFF = w := BitVec.and_allOnes

theorem nop : Statement .nop := by unfold Statement; decide

theorem srst : Statement .srst := by unfold Statement; decide

theorem sclr : Statement .sclr := by unfold Statement; decide

theorem xclr : Statement .xclr := by unfold Statement; decide

theorem xabs (a : Byte) : Statement (.xabs a) :=
  ⟨opOf_pack .., by simp only [opcode]; decide, by
    rw [usedBits, show (0xFFFF000000 : CmdWord) = pack 0xFF 0xFF 0 0 from by decide]
    exact pack_keep (and_ff _) (by decide) (by decide)⟩

theorem xsum (l : Byte) (c : Byte) : Statement (.xsum l c) :=
  ⟨opOf_pack .., by simp only [opcode]; decide, by
    rw [usedBits, show (0xFFFFFF0000 : CmdWord) = pack 0xFF 0xFF 0xFF 0 from by decide]
    exact pack_keep (and_ff _) (and_ff _) (by decide)⟩

theorem cinit : Statement .cinit := by unfold Statement; decide

theorem cabs (a : Byte) : Statement (.cabs a) :=
  ⟨opOf_pack .., by simp only [opcode]; decide, by
    rw [usedBits, show (0xFFFF000000 : CmdWord) = pack 0xFF 0xFF 0 0 from by decide]
    exact pack_keep (and_ff _) (by decide) (by decide)⟩

theorem csum : Statement .csum := by unfold Statement; decide

theorem menc (d : Byte) (c : Byte) : Statement (.menc d c) :=
  ⟨opOf_pack .., by simp only [opcode]; decide, by
    rw [usedBits, show (0xFFFFFF0000 : CmdWord) = pack 0xFF 0xFF 0xFF 0 from by decide]
    exact pack_keep (and_ff _) (and_ff _) (by decide)⟩

theorem mdec : Statement .mdec := by unfold Statement; decide

theorem prst : Statement .prst := by unfold Statement; decide

theorem pfeed (a : Byte) : Statement (.pfeed a) :=
  ⟨opOf_pack .., by simp only [opcode]; decide, by
    rw [usedBits, show (0xFFFF000000 : CmdWord) = pack 0xFF 0xFF 0 0 from by decide]
    exact pack_keep (and_ff _) (by decide) (by decide)⟩

theorem pfeedn : Statement .pfeedn := by unfold Statement; decide

theorem eload : Statement .eload := by unfold Statement; decide

theorem eget (k : Half) : Statement (.eget k) :=
  ⟨opOf_pack .., by simp only [opcode]; decide, by
    rw [usedBits, show (0xFF0000FFFF : CmdWord) = pack 0xFF 0 0 0xFFFF from by decide]
    exact pack_keep (by decide) (by decide) (and_ffff _)⟩

theorem eset (k : Half) : Statement (.eset k) :=
  ⟨opOf_pack .., by simp only [opcode]; decide, by
    rw [usedBits, show (0xFF0000FFFF : CmdWord) = pack 0xFF 0 0 0xFFFF from by decide]
    exact pack_keep (by decide) (by decide) (and_ffff _)⟩

theorem estore : Statement .estore := by unfold Statement; decide

theorem edec : Statement .edec := by unfold Statement; decide

theorem eenc (k : Half) : Statement (.eenc k) :=
  ⟨opOf_pack .., by simp only [opcode]; decide, by
    rw [usedBits, show (0xFF0000FFFF : CmdWord) = pack 0xFF 0 0 0xFFFF from by decide]
    exact pack_keep (by decide) (by decide) (and_ffff _)⟩

theorem fencC (c : Byte) (a : Half) : Statement (.fencC c a) :=
  ⟨opOf_pack .., by simp only [opcode]; decide, by
    rw [usedBits, show (0xFFFF00FFFF : CmdWord) = pack 0xFF 0xFF 0 0xFFFF from by decide]
    exact pack_keep (and_ff _) (by decide) (and_ffff _)⟩

theorem fencR (c : Byte) (k : Byte) (a : Half) : Statement (.fencR c k a) :=
  ⟨opOf_pack .., by simp only [opcode]; decide, by
    rw [usedBits, show (0xFFFFFFFFFF : CmdWord) = pack 0xFF 0xFF 0xFF 0xFFFF from by decide]
    exact pack_keep (and_ff _) (and_ff _) (and_ffff _)⟩

theorem fdec : Statement .fdec := by unfold Statement; decide

end Sys2Proof.Laws.EncodedOp
end

