-- ==== Sys2Proof/Tests/Slice0.lean ====
section
/-! SUPPORT. Tests of the model: words and vectors written out in 95_test_vectors, ill-formed terms the checks refuse, and
for each statement with hypotheses a state and operands that meet them. -/

namespace Sys2Proof.Tests

open Sys2Proof Sys2Proof.Machine

/-- The next state of an answer. -/
def after : Answer → Option State
  | .next s => some s
  | _ => none

/-- The result port after an answer. -/
def res (a : Answer) : Option Result := (after a).bind (fun s => s.result)

/-- The reset state with input bytes on the command port. -/
def given (bs : List Byte) : State := State.reset.withPort ⟨0, bs⟩

/-- The reset state with one command to come. -/
def presented (w : CmdWord) (bs : List Byte) : State := State.reset.withPending [⟨w, bs⟩]

/-- `BLOCK_EX` of 95_test_vectors. -/
def blockEx : List Byte :=
  [0x07, 0x0A, 0x0B, 0xEE, 0x41, 0x4D, 0x33, 0x32, 0x00, 0x00, 0x00, 0x00, 0xDE, 0xAD, 0xBE, 0x5A]

/-- The reset state with `BLOCK_EX` loaded and input bytes on the command port. -/
def loaded (bs : List Byte) : State := (given bs).withRecord blockEx

/-- The reset state with the parser registers at `p`. -/
def parsing (p : Parser) : State := State.reset.withParser p

/-- V22: `MENC 0x3C, 0x69, [0x01, 0x02]`. -/
def frame22 : List Byte := [0x24, 0x4D, 0x3C, 0x02, 0x69, 0x01, 0x02, 0x68]

/-! ### Words written out bit by bit (30_encoding R70, R72) -/

theorem test_word_nop : decode 0b0000000000000000000000000000000000000000 = .instr .nop := by decide
theorem test_word_srst : decode 0b0000000100000000000000000000000000000000 = .instr .srst := by decide
theorem test_word_sclr : decode 0b0000001000000000000000000000000000000000 = .instr .sclr := by decide
theorem test_word_xclr : decode 0b0001000000000000000000000000000000000000 = .instr .xclr := by decide
theorem test_word_xabs : decode 0b0001000101101001000000000000000000000000 = .instr (.xabs 0x69) := by decide
theorem test_word_xsum : decode 0b0001001000000010011010010000000000000000 = .instr (.xsum 0x02 0x69) := by decide
theorem test_word_cinit : decode 0b0010000000000000000000000000000000000000 = .instr .cinit := by decide
theorem test_word_cabs : decode 0b0010000100101111000000000000000000000000 = .instr (.cabs 0x2F) := by decide
theorem test_word_csum : decode 0b0010001000000000000000000000000000000000 = .instr .csum := by decide
theorem test_word_menc : decode 0b0011000000111100011010010000000000000000 = .instr (.menc 0x3C 0x69) := by decide
theorem test_word_mdec : decode 0b0011000100000000000000000000000000000000 = .instr .mdec := by decide
theorem test_word_prst : decode 0b0100000011111111111111111111111111111111 = .instr .prst := by decide
theorem test_word_pfeed : decode 0b0100000100111100000000000000000000000000 = .instr (.pfeed 0x3C) := by decide
theorem test_word_pfeedn : decode 0b0100001000000000000000000000000000000000 = .instr .pfeedn := by decide
theorem test_word_eload : decode 0b0101000000000000000000000000000000000000 = .instr .eload := by decide
theorem test_word_eget : decode 0b0101000100000000111111110000000000000010 = .instr (.eget 0x0002) := by decide
theorem test_word_eset : decode 0b0101001000000000000000001000000000000001 = .instr (.eset 0x8001) := by decide
theorem test_word_estore : decode 0b0101001100000000000000000000000000000000 = .instr .estore := by decide
theorem test_word_edec : decode 0b0101010000000000000000000000000000000000 = .instr .edec := by decide
theorem test_word_eenc : decode 0b0101010100000000000000000000000000000010 = .instr (.eenc 0x0002) := by decide
theorem test_word_fencC : decode 0b0110000000111010000000000111110000000000 = .instr (.fencC 0x3A 0x7C00) := by decide
theorem test_word_fencR : decode 0b0110000100111011000000011111111111111111 = .instr (.fencR 0x3B 0x01 0xFFFF) := by
  decide
theorem test_word_fdec : decode 0b0110001000000000000000000000000000000000 = .instr .fdec := by decide
/-- V60: reserved select codes. -/
theorem test_word_reserved : [0x03, 0x13, 0x23, 0x32, 0x43, 0x56, 0x63, 0x70, 0x7F, 0xFF].all
    (fun n => decide (decode (BitVec.ofNat 40 (n * 2 ^ 32)) = .illegal (BitVec.ofNat 8 n))) = true := by decide
theorem test_table_word : decodeTableWord 40 0x0100000000 = some .srst := by decide
theorem test_table_word_runs : (after (step (State.reset.withFetchWord 40 0x1169000000))).map (fun t => t.xacc) =
    some 0x69 := by decide

/-! ### Well-formedness refuses (00_scope R6, R7; 20_memory R52) -/

theorem test_wf_example : Config.example.wf = true := by decide
theorem test_wf_empty_field : ({ Config.example with schema := [⟨0, 0, .byteArray⟩] }).wf = false := by decide
theorem test_wf_field_past_record : ({ Config.example with schema := [⟨15, 2, .byteArray⟩] }).wf = false := by decide
theorem test_wf_wide_scalar : ({ Config.example with schema := [⟨0, 2, .scalarU8⟩] }).wf = false := by decide
theorem test_wf_overlap :
    ({ Config.example with schema := [⟨0, 4, .byteArray⟩, ⟨8, 1, .scalarU8⟩, ⟨3, 2, .opaqueBlock⟩] }).wf = false := by
  decide
theorem test_wf_no_record : ({ Config.example with recLen := 0, schema := [] }).wf = false := by decide
theorem test_wf_long_record :
    ({ recLen := 65537, schema := [], ibufSize := 65537, obufSize := 65537 : Config }).wf = false := by decide
theorem test_wf_short_ibuf : ({ Config.example with ibufSize := 263 }).wf = false := by decide
theorem test_wf_short_obuf : ({ Config.example with obufSize := 263 }).wf = false := by decide
theorem test_presentable : (Command.mk 0 (List.replicate 264 0)).presentable Config.example = true := by decide +kernel
theorem test_not_presentable : (Command.mk 0 (List.replicate 265 0)).presentable Config.example = false := by decide +kernel

/-! ### One operation at a time (95_test_vectors sections 2 and 3) -/

/-- V62: `NOP` after a fault clears `LASTERR` and keeps `STATUS.FAULT`. -/
theorem test_nop : (after (execNop ((State.reset.withStatus 0x08).withLasterr 0x08))).map
    (fun t => (t.lasterr, t.status)) = some (0x00, 0x08) := by decide
/-- V63. -/
theorem test_srst : (after (execSrst ((((loaded []).withXacc 0x68).withCrcr 0x843D).withStatus 0x0B))).map
    (fun t => (t.xacc, t.crcr, t.recv, t.status)) = some (0x00, 0x0000, false, 0x00) := by decide
/-- P2, step 2. -/
theorem test_sclr : (after (execSclr (State.reset.withStatus 0x03))).map
    (fun t => (t.status, t.result.bind (fun r => r.r8))) = some (0x00, some 0x03) := by decide
/-- R100's example. -/
theorem test_xclr : (after (execXclr (State.reset.withXacc 0x5A))).map (fun t => t.xacc) = some 0x00 := by decide
/-- R101's example. -/
theorem test_xabs : (after (execXabs 0x69 (State.reset.withXacc 0x02))).map (fun t => t.xacc) = some 0x6B := by decide
/-- V10. -/
theorem test_xsum : (res (execXsum 0x02 0x69 (given [0x01, 0x02]))).map (fun r => r.r8) = some (some 0x68) := by decide
/-- V12. -/
theorem test_xsum_eight : (res (execXsum 0x08 0x82 (given [0x04, 0x10, 0x27, 0x96, 0x88, 0x13, 0xE8, 0x03]))).map
    (fun r => r.r8) = some (some 0x5F) := by decide
/-- R103's example. -/
theorem test_cinit : (after (execCinit (State.reset.withCrcr 0x31C3))).map (fun t => t.crcr) = some 0x0000 := by decide
/-- V17. -/
theorem test_cabs : (after (execCabs 0x3A (State.reset.withCrcr 0xD58D))).map (fun t => t.crcr) = some 0x81C1 := by
  decide
/-- V2: the one CRC value the source gives. -/
theorem test_csum : (res (execCsum (given [0x31, 0x32, 0x33, 0x34, 0x35, 0x36, 0x37, 0x38, 0x39]))).map
    (fun r => r.r16) = some (some 0x31C3) := by decide +kernel
/-- V22. -/
theorem test_menc : (res (execMenc 0x3C 0x69 (given [0x01, 0x02]))).map (fun r => r.obuf) = some frame22 := by decide
/-- V28: both defects, the length reported. -/
theorem test_menc_fault : (after (execMenc 0x41 0x01 (given (List.replicate 256 0)))).map
    (fun t => (t.lasterr, t.status)) = some (0x01, 0x08) := by decide +kernel
/-- V29: a bad frame, then a good one. -/
theorem test_mdec : (after (execMdec (given
      [0x24, 0x4D, 0x3E, 0x01, 0x05, 0x07, 0x00, 0x24, 0x4D, 0x3E, 0x00, 0x02, 0x02]))).map
    (fun t => (t.status, t.result)) = some (0x02, some
      { err := 0, found := some true, dir := some 0x3E, cmd := some 0x02, len := some 0x00, obuf := [], used := some 13 }) := by decide +kernel
/-- P1, step 4: the second half of a frame alone. -/
theorem test_mdec_none : (res (execMdec (given [0x02, 0x68]))) = some { err := 0, found := some false, used := some 2 } := by
  decide
/-- V38. -/
theorem test_prst : (after (execPrst (parsing ⟨.payload, 0x3C, 0x02, 0x69, 0x6A, [0x01]⟩))).map (fun t => t.parser) =
    some Parser.idle := by decide
/-- V30, seventh row. -/
theorem test_pfeed : (after (execPfeed 0x02 (parsing ⟨.payload, 0x3C, 0x02, 0x69, 0x6A, [0x01]⟩))).map
    (fun t => t.parser) = some ⟨.checksum, 0x3C, 0x02, 0x69, 0x68, [0x01, 0x02]⟩ := by decide
/-- V30, last row. -/
theorem test_pfeed_frame : res (execPfeed 0x68 (parsing ⟨.checksum, 0x3C, 0x02, 0x69, 0x68, [0x01, 0x02]⟩)) =
    some { err := 0, ev := some 1, dir := some 0x3C, cmd := some 0x69, len := some 0x02, obuf := [0x01, 0x02] } := by
  decide
/-- P2, step 1. -/
theorem test_pfeedn : (after (execPfeedn (given [0x24, 0x4D, 0x58, 0x24, 0x4D, 0x3E, 0x01, 0x05, 0x07, 0x00, 0x24,
      0x4D, 0x3E, 0x00, 0x02, 0x02, 0x24, 0x4D]))).map (fun t => (t.parser.pst, t.status, t.result.bind (·.events))) =
    some (.direction, 0x03, some [(2, .badDir 0x58), (9, .ckErr 0x05 0x03 0x00), (15, .frame ⟨0x3E, 0x02, 0, []⟩)]) := by
  decide
/-- V35: a stray `'$'` loses the frame. -/
theorem test_pfeedn_stray : (res (execPfeedn (given [0x24, 0x24, 0x4D, 0x3C, 0x00, 0x01, 0x01]))).map
    (fun r => r.events) = some (some []) := by decide
/-- V41. -/
theorem test_eload : (after (execEload (given blockEx))).map (fun t => t.record) = some (some blockEx) := by decide
/-- V44: a block of 15 bytes. -/
theorem test_eload_short : (after (execEload (given (blockEx.take 15)))).map (fun t => (t.recv, t.lasterr)) =
    some (false, 0x0A) := by decide
/-- V41: field 2, the string without its null padding. -/
theorem test_eget : res (execEget 2 (loaded [])) =
    some { err := 0, kind := some .asciiString, obuf := [0x41, 0x4D, 0x33, 0x32] } := by decide
/-- V44: the index is tested before the record. -/
theorem test_eget_order : (after (execEget 4 State.reset)).map (fun t => t.lasterr) = some 0x06 := by decide
/-- V43: non-ASCII bytes pass and set the flag. -/
theorem test_eset : (after (execEset 2 (loaded [0xC3, 0xA9]))).map (fun t => (t.status, t.record)) =
    some (0x04, some [0x07, 0x0A, 0x0B, 0xEE, 0xC3, 0xA9, 0, 0, 0, 0, 0, 0, 0xDE, 0xAD, 0xBE, 0x5A]) := by decide
/-- V44: a string longer than its field. -/
theorem test_eset_long : (after (execEset 2 (loaded (List.replicate 9 0x41)))).map (fun t => (t.lasterr, t.record)) =
    some (0x07, some blockEx) := by decide
/-- V42. -/
theorem test_estore : res (execEstore (loaded [])) = some { err := 0, obuf := blockEx } := by decide
/-- V44: nothing loaded. -/
theorem test_estore_empty : (after (execEstore State.reset)).map (fun t => t.lasterr) = some 0x08 := by decide
/-- V40. -/
theorem test_edec : (res (execEdec (given blockEx))).map (fun r => r.fields) = some (some
    [⟨0, .scalarU8, [0x07]⟩, ⟨1, .byteArray, [0x0A, 0x0B]⟩, ⟨2, .asciiString, [0x41, 0x4D, 0x33, 0x32]⟩,
      ⟨3, .opaqueBlock, [0xDE, 0xAD, 0xBE]⟩]) := by decide
/-- V46. -/
theorem test_eenc : res (execEenc 2 (given [0x41])) =
    some { err := 0, obuf := [0x41, 0, 0, 0, 0, 0, 0, 0], r16 := some 4 } := by decide
/-- V50: the command form. -/
theorem test_fencC : (res (execFencC 0x3A 0x7C00 (given []))).map (fun r => r.obuf) =
    some [0x2F, 0x3A, 0x7C, 0x00, 0x01, 0x00, 0x84, 0x3D] := by decide +kernel
/-- V54. -/
theorem test_fencC_fault : (after (execFencC 0x01 0x0002 (given (List.replicate 257 0)))).map (fun t => t.lasterr) =
    some 0x03 := by decide +kernel
/-- V51: the response form. -/
theorem test_fencR : (res (execFencR 0x3B 0x01 0xFFFF (given [0xDE, 0xAD, 0xBE]))).map (fun r => r.obuf) =
    some [0x2F, 0x3B, 0xFF, 0xFF, 0x03, 0xDE, 0xAD, 0xBE, 0x01, 0x68, 0x70] := by decide +kernel
/-- V58: another sentinel, and trailing bytes. -/
theorem test_fdec : res (execFdec (given [0x2E, 0x3A, 0x7C, 0x00, 0x01, 0x00, 0x00, 0x54, 0x6D, 0x55])) =
    some { err := 0, sent := some 0x2E, cmd := some 0x3A, addr := some 0x7C00, count := some 1, obuf := [0x00]
           ack := some 0x00, crc := some 0x546D, used := some 9, trail := some true } := by decide +kernel
/-- V57: the CRC bytes swapped. -/
theorem test_fdec_fault : (after (execFdec (given [0x2F, 0x3A, 0x7C, 0x00, 0x01, 0x00, 0x00, 0x0C, 0xEC]))).map
    (fun t => (t.lasterr, t.status)) = some (0x05, 0x08) := by decide +kernel
/-- P5, step 1: a reserved select code, through a step. -/
theorem test_illegal : (after (step (presented 0x7F00000000 []))).map (fun t => (t.lasterr, t.status)) =
    some (0x09, 0x08) := by decide
/-- The status port in the middle of a frame (10_state R20, R29; V32). -/
theorem test_status_port : statusPort (parsing ⟨.payload, 0x3C, 0x02, 0x69, 0x6A, [0x01]⟩) =
    { xacc := 0, crcr := 0, pst := 5, pdir := 0x3C, plen := 0x02, pcmd := 0x69, pck := 0x6A, pay := [0x01], pcnt := 1
      recBytes := none, recv := false, status := 0, lasterr := 0 } := by decide

/-! ### For each statement with hypotheses, a state and operands that meet them -/

theorem witness_OnlyAssignedOpsDecode : opOf 0x6200000000 ∈ assignedOps ∧ opOf 0x6300000000 ∉ assignedOps := by decide
theorem witness_UnusedFieldsIgnored : decode 0x0000000000 = .instr .nop ∧
    (0x00ABCDEF01 : CmdWord) &&& usedBits .nop = 0x0000000000 &&& usedBits .nop ∧ readsIbuf .nop = false := by decide
theorem witness_StepExecutesDecodedCommand : (presented 0x5000000000 blockEx).cfg.wf = true ∧
    (presented 0x5000000000 blockEx).pending = ⟨0x5000000000, blockEx⟩ :: [] ∧ blockEx.length ≤ 264 ∧
    decode 0x5000000000 = .instr .eload := by decide
theorem witness_ReservedOpRaisesIllegalOperation : (presented 0x7F12345678 []).cfg.wf = true ∧
    (presented 0x7F12345678 []).pending = ⟨0x7F12345678, []⟩ :: [] ∧ opOf 0x7F12345678 ∉ assignedOps ∧
    opOf 0x0300000000 ∉ assignedOps ∧ opOf 0xFF00000000 ∉ assignedOps := by decide
theorem witness_StepRefusesWhatCannotBePresented_config : (State.resetWith { Config.example with obufSize := 0 }).cfg.wf = false := by decide
theorem witness_StepRefusesWhatCannotBePresented_ilen : (presented 0 (List.replicate 265 0)).cfg.wf = true ∧
    (presented 0 (List.replicate 265 0)).pending = ⟨0, List.replicate 265 0⟩ :: [] ∧
    State.reset.cfg.ibufSize < (List.replicate 265 (0 : Byte)).length := by decide +kernel
theorem witness_IdleStepKeepsAllState : State.reset.cfg.wf = true ∧ State.reset.pending = [] := by decide
/-- The select codes that the statements of the single operations name. -/
theorem witness_encodings : opOf 0x0000000000 = 0x00 ∧ opOf 0x0100000000 = 0x01 ∧ opOf 0x0200000000 = 0x02 ∧
    opOf 0x1000000000 = 0x10 ∧ opOf 0x1100000000 = 0x11 ∧ opOf 0x1200000000 = 0x12 ∧ opOf 0x2000000000 = 0x20 ∧
    opOf 0x2100000000 = 0x21 ∧ opOf 0x2200000000 = 0x22 ∧ opOf 0x3000000000 = 0x30 ∧ opOf 0x3100000000 = 0x31 ∧
    opOf 0x4000000000 = 0x40 ∧ opOf 0x4100000000 = 0x41 ∧ opOf 0x4200000000 = 0x42 := by decide
/-- The select codes that the record and four-way statements name. -/
theorem witness_encodings_records : opOf 0x5000000000 = 0x50 ∧ opOf 0x5100000000 = 0x51 ∧ opOf 0x5200000000 = 0x52 ∧
    opOf 0x5300000000 = 0x53 ∧ opOf 0x5400000000 = 0x54 ∧ opOf 0x5500000000 = 0x55 ∧ opOf 0x6000000000 = 0x60 ∧
    opOf 0x6100000000 = 0x61 ∧ opOf 0x6200000000 = 0x62 := by decide
theorem witness_StepwiseXorEqualsOneShot : State.reset.cfg.wf = true ∧
    ([0x01, 0x02] : List Byte).Perm [0x02, 0x01] := ⟨by decide, .swap ..⟩
theorem witness_StepwiseCrcEqualsOneShot : State.reset.cfg.wf = true := by decide
theorem witness_MencBuildsFrameOrFaults : (given (List.replicate 255 0xAA)).port.ibuf.length ≤ 255 ∧
    ((0x21 : Byte) = 0x3C ∨ (0x21 : Byte) = 0x3E ∨ (0x21 : Byte) = 0x21) := by decide +kernel
theorem witness_MencOutputGuarantees : (given [0x01, 0x02]).port.ibuf.length ≤ 255 ∧
    ((0x3E : Byte) = 0x3C ∨ (0x3E : Byte) = 0x3E ∨ (0x3E : Byte) = 0x21) := by decide
theorem witness_MspRoundTrip : ((0x21 : Byte) = 0x3C ∨ (0x21 : Byte) = 0x3E ∨ (0x21 : Byte) = 0x21) ∧
    ([] : List Byte).length ≤ 255 ∧ (List.replicate 255 (0x24 : Byte)).length ≤ 255 := by decide +kernel
theorem witness_MencBuildsFrameOrFaults_payloadTooLong : 255 < (given (List.replicate 256 0)).port.ibuf.length := by decide +kernel
theorem witness_MencBuildsFrameOrFaults_badDirection : (given []).port.ibuf.length ≤ 255 ∧ (0x41 : Byte) ≠ 0x3C ∧ (0x41 : Byte) ≠ 0x3E ∧
    (0x41 : Byte) ≠ 0x21 := by decide
theorem witness_MdecReturnsFirstFrame_found : (feedEvents Parser.idle 0 frame22).find? (fun e => isFrameEvent e.2) =
    some (7, .frame ⟨0x3C, 0x69, 0x02, [0x01, 0x02]⟩) := by decide
theorem witness_MdecReturnsFirstFrame_none : (feedEvents Parser.idle 0 [0x24]).find? (fun e => isFrameEvent e.2) =
    none := by decide
theorem witness_MspSingleByteCorruptionRejected : (0x3C : Byte) = 0x3C ∧ ([0x01, 0x02] : List Byte).length ≤ 255 ∧
    frame22[5]? = some 0x01 ∧ (0x11 : Byte) ≠ 0x01 ∧ frame22[7]? = some 0x68 ∧ (0x69 : Byte) ≠ 0x68 := by decide
theorem witness_PfeedHeaderRows : State.reset.parser.pst = .seekDollar ∧
    (parsing ⟨.seekM, 0, 0, 0, 0, []⟩).parser.pst = .seekM ∧
    (parsing ⟨.direction, 0, 0, 0, 0, []⟩).parser.pst = .direction ∧ (0x58 : Byte) ≠ 0x3C ∧ (0x58 : Byte) ≠ 0x3E ∧
    (0x58 : Byte) ≠ 0x21 ∧ (parsing ⟨.length, 0x3C, 0, 0, 0, []⟩).parser.pst = .length ∧
    (parsing ⟨.command, 0x3C, 0x02, 0, 0x02, []⟩).parser.pst = .command := by decide
theorem witness_PfeedPayloadAndChecksumRows :
    (parsing ⟨.payload, 0x3C, 0x02, 0x69, 0x6B, []⟩).parser.pst = .payload ∧
    (parsing ⟨.checksum, 0x3C, 0, 0x01, 0x01, []⟩).parser.pst = .checksum ∧
    (parsing ⟨.checksum, 0x3C, 0, 0x01, 0x01, []⟩).parser.pck = 0x01 ∧ (0x00 : Byte) ≠ 0x01 := by decide
theorem witness_SplitIndependence : State.reset.parser = ⟨.seekDollar, 0, 0, 0, 0, []⟩ ∧
    frame22 = [0x24, 0x4D, 0x3C, BitVec.ofNat 8 2, 0x69] ++ [0x01, 0x02] ++
      [mspChecksum (BitVec.ofNat 8 2) 0x69 [0x01, 0x02]] ∧ 8 ≤ frame22.length := by decide
theorem witness_SurfacedFramesStandOnTheWire : (given frame22).parser = ⟨.seekDollar, 0, 0, 0, 0, []⟩ ∧
    (7, Event.frame ⟨0x3C, 0x69, 0x02, [0x01, 0x02]⟩) ∈ feedEvents (given frame22).parser 0 frame22 := by decide
theorem witness_StrayDollarLosesFrameSilently : State.reset.parser = ⟨.seekDollar, 0, 0, 0, 0, []⟩ ∧
    ∀ x ∈ [0x3C, BitVec.ofNat 8 0, 0x01] ++ ([] : List Byte) ++ [mspChecksum (BitVec.ofNat 8 0) 0x01 []],
      x ≠ 0x24 := by decide
theorem witness_EloadAndEstoreMoveWholeRecords_eload : (given blockEx).port.ibuf.length = (given blockEx).cfg.recLen ∧
    (given (blockEx.take 15)).port.ibuf.length ≠ (given blockEx).cfg.recLen ∧
    (given (0 :: blockEx)).port.ibuf.length ≠ (given blockEx).cfg.recLen := by decide
theorem witness_EloadAndEstoreMoveWholeRecords_estore : (loaded []).record = some blockEx ∧ State.reset.record = none := by decide
theorem witness_EgetDecodesOneField : (loaded []).cfg.wf = true ∧
    (loaded []).cfg.schema[(2 : Half).toNat]? = some ⟨4, 8, .asciiString⟩ ∧ (loaded []).record = some blockEx ∧
    blockEx.length = (loaded []).cfg.recLen := by decide
theorem witness_EgetEsetEenc_schema_fault : State.reset.cfg.nf ≤ (4 : Half).toNat ∧ State.reset.cfg.nf ≤ (0xFFFF : Half).toNat := by
  decide
theorem witness_EgetEset_noRecord_fault : (3 : Half).toNat < State.reset.cfg.nf ∧ State.reset.record = none := by decide
theorem witness_EsetWritesExactlyOneField : (loaded [0x58, 0x59]).cfg.wf = true ∧
    (loaded [0x58, 0x59]).cfg.schema[(2 : Half).toNat]? = some ⟨4, 8, .asciiString⟩ ∧
    encodeField .asciiString 8 (loaded [0x58, 0x59]).port.ibuf = some [0x58, 0x59, 0, 0, 0, 0, 0, 0] := by decide
theorem witness_EsetEenc_valueLength_fault : (loaded [0x01]).cfg.schema[(1 : Half).toNat]? = some ⟨1, 2, .byteArray⟩ ∧
    (loaded [0x01]).record = some blockEx ∧ encodeField .byteArray 2 (loaded [0x01]).port.ibuf = none := by decide
theorem witness_EdecDecodesEveryField : (given blockEx).cfg.wf = true ∧
    (given blockEx).port.ibuf.length = (given blockEx).cfg.recLen ∧
    (given (blockEx.take 15)).port.ibuf.length ≠ (given blockEx).cfg.recLen := by decide
theorem witness_EencEncodesOneField : (given [0x41]).cfg.wf = true ∧
    (given [0x41]).cfg.schema[(2 : Half).toNat]? = some ⟨4, 8, .asciiString⟩ ∧
    encodeField .asciiString 8 (given [0x41]).port.ibuf = some [0x41, 0, 0, 0, 0, 0, 0, 0] ∧
    encodeField .asciiString 8 (given (List.replicate 9 0x41)).port.ibuf = none := by decide
theorem witness_FieldCodecsInvertEachOther : (Kind.byteArray = .byteArray ∨ Kind.byteArray = .opaqueBlock) ∧
    Kind.scalarU8 ≠ .asciiString ∧ ([0x07] : List Byte).length = 1 ∧
    encodeField .asciiString 2 [0x41] = some [0x41, 0x00] := by decide
theorem witness_RecordRoundTrip : State.reset.cfg.wf = true ∧ blockEx.length = State.reset.cfg.recLen ∧
    ∀ k ∈ ([3, 0, 2, 1] : List Half), k.toNat < State.reset.cfg.nf := by
  refine ⟨by decide, by decide, fun k hk => ?_⟩
  simp only [List.mem_cons, List.not_mem_nil, or_false] at hk
  rcases hk with rfl | rfl | rfl | rfl <;> decide
theorem witness_ReadAfterFieldWrite : (loaded [0x09]).cfg.wf = true ∧
    (loaded [0x09]).cfg.schema[(0 : Half).toNat]? = some ⟨0, 1, .scalarU8⟩ ∧ (loaded [0x09]).record = some blockEx ∧
    blockEx.length = (loaded [0x09]).cfg.recLen ∧ encodeField .scalarU8 1 (loaded [0x09]).port.ibuf = some [0x09] ∧
    (2 : Half) ≠ 0 ∧ (2 : Half).toNat < (loaded [0x09]).cfg.nf := by decide
theorem witness_UncoveredBytesAreCarried : (loaded [0x09]).cfg.wf = true ∧ (loaded [0x09]).recordOk = true ∧
    (∀ e ∈ (loaded [0x09]).cfg.schema, 3 < e.offset ∨ e.offset + e.length ≤ 3) ∧
    (after (exec (.eset 0) (loaded [0x09]))).isSome = true := by decide
theorem witness_FourWayEncodersBuildFrames : (given []).port.ibuf.length ≤ 256 ∧
    (given (List.replicate 256 0)).port.ibuf.length ≤ 256 ∧ 256 < (given (List.replicate 257 0)).port.ibuf.length := by
  decide +kernel
theorem witness_FdecTakesResponseFormApart_short : (given (List.replicate 8 0)).port.ibuf.length < 9 ∧
    9 ≤ (given (List.replicate 9 0)).port.ibuf.length ∧
    (given (List.replicate 9 0)).port.ibuf.length < 8 + countOf ((given (List.replicate 9 0)).port.ibuf.getD 4 0) := by
  decide
theorem witness_FdecTakesResponseFormApart_checksum : 8 + countOf 0x01 ≤ (9 : Nat) ∧
    crc16 (slice [0x2F, 0x3A, 0x7C, 0x00, 0x01, 0x01, 0x00, 0xEC, 0x0C] 0 7) ≠ be16 0xEC 0x0C ∧
    crc16 (slice [0x2F, 0x3A, 0x7C, 0x00, 0x01, 0x00, 0x00, 0xEC, 0x0C] 0 7) = be16 0xEC 0x0C := by decide +kernel
theorem witness_FourWayRoundTrip : ([] : List Byte).length ≤ 256 ∧ (List.replicate 256 (0 : Byte)).length ≤ 256 := by
  decide +kernel
theorem witness_FourWaySingleByteChangeRejected : (res (execFencR 0x3B 0x01 0xFFFF (given [0xDE, 0xAD, 0xBE]))).map
    (fun r => (r.obuf[8]?, r.obuf.length)) = some (some 0x01, 11) ∧ (0x02 : Byte) ≠ 0x01 ∧ 11 < 8 + countOf 0x04 := by
  decide +kernel
theorem witness_CommandFormGivenToFdec : ([] : List Byte).length ≤ 256 ∧ (0x01 : Byte) ≠ 0x00 := by decide
theorem witness_CountByteConvention : 1 ≤ (256 : Nat) ∧ (given (List.replicate 256 7)).port.ibuf.length = 256 ∧
    (given (List.replicate 264 0)).port.ibuf[4]? = some 0x00 := by decide +kernel
theorem crc16_zeros (n : Nat) : crc16 (List.replicate n 0) = 0 := by
  have step : crc16Step 0#16 0#8 = 0#16 := by decide
  induction n with
  | zero => rfl
  | succ n ih => rw [List.replicate_succ, ← ih]; simp [crc16, crc16From, step]
theorem witness_CountByteConvention_fdec : (res (exec .fdec (given (List.replicate 264 0)))).map
    (fun r => (r.err, r.olen)) = some (0, 256) := by
  have crc : crc16 (slice (given (List.replicate 264 0)).ibuf 0 262) = 0 := by
    rw [show slice (given (List.replicate 264 0)).ibuf 0 262 = List.replicate 262 0 by decide +kernel]
    exact crc16_zeros 262
  have count : countOf (byteAt (given (List.replicate 264 0)).ibuf 4) = 256 := by decide +kernel
  simp only [exec, execFdec, count, crc]
  decide +kernel
theorem witness_FaultsChangeNothingElse : (res (exec (.eget 0) State.reset)).map (fun r => r.err) = some 0x08 ∧
    (0x08 : Byte) ≠ 0 := by decide
theorem witness_OperationsThatNeverFault : Instr.mdec ∈ ([.nop, .srst, .sclr, .xclr, .xabs 1, .xsum 1 2, .cinit,
    .cabs 1, .csum, .mdec, .prst, .pfeed 1, .pfeedn] : List Instr) := by decide
theorem witness_FaultsChangeNothingElse_step : (presented 0x7F00000000 []).pending = ⟨0x7F00000000, []⟩ :: [] ∧
    (res (step (presented 0x7F00000000 []))).map (fun r => r.err) = some 0x09 := by decide
theorem witness_LasterrIsErrOfLastOperation : (after (exec .nop State.reset)).isSome = true := by decide
theorem witness_StatusFlagsAreSticky : (after (exec (.eget 0) (State.reset.withStatus 0x03))).map
    (fun t => (t.status, t.lasterr)) = some (0x0B, 0x08) := by decide
theorem witness_RegistersHaveTheirWritersOnly : (after (exec .eload (given blockEx))).map (fun t => t.record.isSome) =
    some true := by decide
theorem witness_ResetMeetsStateInvariant : Config.example.wf = true := by decide
theorem witness_StepKeepsStateInvariant : (presented 0x5000000000 blockEx).inv = true ∧
    (after (step (presented 0x5000000000 blockEx))).isSome = true := by decide
theorem witness_NoAccessOutsideBuffer : State.reset.inv = true := by decide
theorem witness_ConfigurationIsFixed : (after (step State.reset)).isSome = true := by decide
theorem witness_OutputFitsOutputBuffer : (presented 0x5400000000 blockEx).inv = true ∧
    (presented 0x5400000000 blockEx).pending ≠ [] ∧
    (after (step (presented 0x5400000000 blockEx))).isSome = true := by decide

end Sys2Proof.Tests
end

section
/-! 00_scope: the checksum values the spec writes out, and the count byte of the four-way frames. -/

namespace Sys2Proof.Machine

/-- Settles O17: each value is the shift and xor procedure of R15 run on the bytes the vector names. -/
theorem crcWrittenValues : Obligations.CrcWrittenValues := by
  unfold Obligations.CrcWrittenValues
  refine ⟨?digits, ?step, ?one, ?high, ?ones, ?frame⟩
  case digits => decide +kernel
  case step => decide
  case one => decide
  case high => decide
  case ones => decide +kernel
  case frame => decide +kernel

/-! ### The count byte (00_scope R16) -/

theorem countByte_eq_ofNat (n : Nat) : countByte n = BitVec.ofNat 8 n :=
  BitVec.eq_of_toNat_eq (by simp [countByte])

theorem countByte_toNat (n : Nat) : (countByte n).toNat = n % 256 := by
  rw [countByte_eq_ofNat, BitVec.toNat_ofNat]

theorem countOf_eq (c : Byte) : countOf c = if c.toNat = 0 then 256 else c.toNat := by
  have hzero : c = 0 ↔ c.toNat = 0 := BitVec.toNat_eq
  simp only [countOf, hzero]

theorem countOf_countByte {n : Nat} (hpos : 1 ≤ n) (hle : n ≤ 256) : countOf (countByte n) = n := by
  rw [countOf_eq, countByte_toNat]
  split <;> omega

theorem countByte_countOf (c : Byte) : countByte (countOf c) = c := by
  apply BitVec.eq_of_toNat_eq
  have := c.isLt
  rw [countByte_toNat, countOf_eq]
  split <;> omega

/-! ### The encoders write it at index 4 (44_fourway_frame_codec R201, R202) -/

theorem fwParams_of_pos {q : List Byte} (h : 1 ≤ q.length) : fwParams q = q :=
  if_neg (List.length_pos_iff.mp h)

theorem fwCommandForm_countByte (c : Byte) (a : Half) (q : List Byte) :
    (fwCommandForm c a q)[4]? = some (countByte (fwParams q).length) := rfl

theorem fwResponseForm_countByte (c k : Byte) (a : Half) (q : List Byte) :
    (fwResponseForm c k a q)[4]? = some (countByte (fwParams q).length) := rfl

theorem exec_fencC_of_le {s : State} (h : s.ilen ≤ 256) (c : Byte) (a : Half) :
    exec (.fencC c a) s = .next (afterOk { err := 0, obuf := fwCommandForm c a s.ibuf } s) :=
  if_neg (Nat.not_lt.mpr h)

theorem exec_fencR_of_le {s : State} (h : s.ilen ≤ 256) (c k : Byte) (a : Half) :
    exec (.fencR c k a) s = .next (afterOk { err := 0, obuf := fwResponseForm c k a s.ibuf } s) :=
  if_neg (Nat.not_lt.mpr h)

/-! ### `FDEC` reads it back (44_fourway_frame_codec R206) -/

@[simp] theorem afterOk_result (r : Result) (s : State) : (afterOk r s).result = some r := rfl

@[simp] theorem afterFault_result (e : Err) (s : State) :
    (afterFault e s).result = some { err := errCode e } := rfl

/-- An operation that took a fault did not end `ok`. -/
theorem raise_err_ne_zero {e : Err} {s t : State} {r : Result} (h : raise e s = .next t)
    (hr : t.result = some r) : r.err ≠ 0 := by
  rw [raise_next h, afterFault_result] at hr
  cases hr
  exact errCode_ne_zero e

theorem finish_result {r r' : Result} {s t : State} (h : finish r s = .next t) (hr : t.result = some r') :
    r' = r := by
  rw [finish_next h, afterOk_result] at hr
  exact (Option.some.inj hr).symm

/-- `FDEC` ends `ok` only on a whole frame whose CRC is right, and then shows that frame's fields. -/
theorem exec_fdec_ok {s t : State} {r : Result} {n : Nat} (hn : n = countOf (byteAt s.ibuf 4))
    (h : exec .fdec s = .next t) (hr : t.result = some r) (hok : r.err = 0) :
    8 + n ≤ s.ilen ∧
      crc16 (slice s.ibuf 0 (6 + n)) = be16 (byteAt s.ibuf (6 + n)) (byteAt s.ibuf (7 + n)) ∧
      r = fdecResult s.ibuf n := by
  subst hn
  change execFdec s = .next t at h
  rcases execFdec_cases s with ⟨-, he⟩ | ⟨-, -, he⟩ | ⟨-, -, -, he⟩ | ⟨-, hlen, hcrc, he⟩ <;> rw [he] at h
  · exact absurd hok (raise_err_ne_zero h hr)
  · exact absurd hok (raise_err_ne_zero h hr)
  · exact absurd hok (raise_err_ne_zero h hr)
  · exact ⟨hlen, hcrc, finish_result h hr⟩

theorem fdecResult_olen {raw : List Byte} {n : Nat} (h : 5 + n ≤ raw.length) : (fdecResult raw n).olen = n := by
  change (slice raw 5 (5 + n)).length = n
  rw [slice_length]; omega

/-- Settles O43: R16's two functions invert each other, both encoders write `countByte` at index 4, and `FDEC` takes
the parameter count from `countOf` of that byte. -/
theorem countByteConvention : Obligations.CountByteConvention := by
  unfold Obligations.CountByteConvention
  refine ⟨fun n hpos hle => ⟨countOf_countByte hpos hle, countByte_toNat n⟩,
    fun c => ⟨countByte_countOf c, countOf_eq c⟩, ?encoders, ?decoder⟩
  case encoders =>
    intro s a k w n hn hpos hle
    subst hn
    have hcount : countByte (fwParams s.ibuf).length = BitVec.ofNat 8 s.port.ibuf.length := by
      rw [State.ibuf_eq, fwParams_of_pos hpos, countByte_eq_ofNat]
    exact ⟨_, _, _, _, exec_fencC_of_le hle a w, rfl, by rw [fwCommandForm_countByte, hcount],
      exec_fencR_of_le hle a k w, rfl, by rw [fwResponseForm_countByte, hcount]⟩
  case decoder =>
    intro s t r hzero h hr hok
    have hcount : 256 = countOf (byteAt s.ibuf 4) := by
      rw [byteAt, State.ibuf_eq, List.getD_eq_getElem?_getD, hzero]; rfl
    obtain ⟨hlen, -, rfl⟩ := exec_fdec_ok hcount h hr hok
    exact ⟨rfl, fdecResult_olen (by rw [State.ilen] at hlen; omega)⟩

end Sys2Proof.Machine
end

section
/-! 10_state: what an operation writes and leaves alone, and what every step keeps. -/

namespace Sys2Proof.Machine

/-! ### The fields after an operation has ended -/

section afterOk
variable (r : Result) (s : State)
@[simp] theorem afterOk_xacc : (afterOk r s).xacc = s.xacc := rfl
@[simp] theorem afterOk_crcr : (afterOk r s).crcr = s.crcr := rfl
@[simp] theorem afterOk_parser : (afterOk r s).parser = s.parser := rfl
@[simp] theorem afterOk_record : (afterOk r s).record = s.record := rfl
@[simp] theorem afterOk_status : (afterOk r s).status = s.status := rfl
@[simp] theorem afterOk_lasterr : (afterOk r s).lasterr = 0x00 := rfl
@[simp] theorem afterOk_cfg : (afterOk r s).cfg = s.cfg := rfl
@[simp] theorem afterOk_port : (afterOk r s).port = s.port := rfl
@[simp] theorem afterOk_pending : (afterOk r s).pending = s.pending := rfl
end afterOk

section afterFault
variable (e : Err) (s : State)
@[simp] theorem afterFault_xacc : (afterFault e s).xacc = s.xacc := rfl
@[simp] theorem afterFault_crcr : (afterFault e s).crcr = s.crcr := rfl
@[simp] theorem afterFault_parser : (afterFault e s).parser = s.parser := rfl
@[simp] theorem afterFault_record : (afterFault e s).record = s.record := rfl
@[simp] theorem afterFault_status : (afterFault e s).status = raiseFlag .fault s.status := rfl
@[simp] theorem afterFault_lasterr : (afterFault e s).lasterr = errCode e := rfl
@[simp] theorem afterFault_cfg : (afterFault e s).cfg = s.cfg := rfl
@[simp] theorem afterFault_port : (afterFault e s).port = s.port := rfl
@[simp] theorem afterFault_pending : (afterFault e s).pending = s.pending := rfl
end afterFault

@[simp] theorem mdecResult_err (n : Nat) (r : Option (Frame × Nat)) : (mdecResult n r).err = 0 := by
  cases r <;> rfl

@[simp] theorem feedResult_err (ev : Event) : (feedResult ev).err = 0 := by
  cases ev <;> rfl

/-! ### What an operation can do, said once -/

/-- `OkEffect s i u`: when `i` ends `ok` in `s`, the registers it writes, `LASTERR` aside, stand as in `u`
(10_state R20 to R34). `keeps` is the effect of NOP, XSUM, CSUM, MENC, ESTORE, FENC.C, FENC.R and FDEC; a value that no
claim about registers asks for is left open. -/
inductive OkEffect (s : State) : Instr → State → Prop
  | keeps {i : Instr} (hclear : i ≠ .sclr) (hreset : i ≠ .srst) : OkEffect s i s
  | srst : OkEffect s .srst s.resetRegisters
  | sclr : OkEffect s .sclr (s.withStatus 0x00)
  | xacc {i : Instr} (v : Byte) (hi : i = .xclr ∨ ∃ a, i = .xabs a) : OkEffect s i (s.withXacc v)
  | crcr {i : Instr} (v : Half) (hi : i = .cinit ∨ ∃ a, i = .cabs a) : OkEffect s i (s.withCrcr v)
  | mdec : OkEffect s .mdec (s.withStatus (mdecScan Parser.idle s.status 0 s.ibuf).1)
  | prst : OkEffect s .prst (s.withParser Parser.idle)
  | pfeed (a : Byte) : OkEffect s (.pfeed a)
      ((s.withParser (pstep s.parser a).1).withStatus (eventFlags s.status (pstep s.parser a).2))
  | pfeedn : OkEffect s .pfeedn
      ((s.withParser (feedParser s.parser s.ibuf)).withStatus
        (eventsFlags s.status (feedEvents s.parser 0 s.ibuf)))
  | eload (hlen : s.ilen = s.cfg.recLen) : OkEffect s .eload (s.withRecord s.ibuf)
  | codec {i : Instr} (na : Bool) (hi : i = .edec ∨ ∃ k, i = .eget k ∨ i = .eset k ∨ i = .eenc k) :
      OkEffect s i (s.withStatus (raiseFlagIf na .nonAscii s.status))
  | eset (k : Half) (na : Bool) {b b' : List Byte} (hb : s.record = some b) (hlen : b'.length = b.length) :
      OkEffect s (.eset k) ((s.withRecord b').withStatus (raiseFlagIf na .nonAscii s.status))

/-- The two ways an operation ends: it takes a fault, which SCLR and SRST never do, or it ends `ok` (00_scope R12). -/
inductive Ends (i : Instr) (s : State) : State → Prop
  | fault (hclear : i ≠ .sclr) (hreset : i ≠ .srst) (e : Err) : Ends i s (afterFault e s)
  | ok {r : Result} {u : State} (hr : r.err = 0) (hu : OkEffect s i u) : Ends i s (afterOk r u)

theorem ends_of_raise {i : Instr} {s t : State} {e : Err} {a : Answer} (he : a = raise e s) (h : a = .next t)
    (hclear : i ≠ .sclr) (hreset : i ≠ .srst) : Ends i s t := by
  rw [raise_next (he.symm.trans h)]
  exact .fault hclear hreset e

theorem ends_of_finish {i : Instr} {s t u : State} {r : Result} {a : Answer} (he : a = finish r u)
    (h : a = .next t) (hr : r.err = 0) (hu : OkEffect s i u) : Ends i s t := by
  rw [finish_next (he.symm.trans h)]
  exact .ok hr hu

/-- Every operation that has a next state ends in one of the two ways, with its own writes only. -/
theorem exec_ends {i : Instr} {s t : State} (h : exec i s = .next t) : Ends i s t := by
  cases i with
  | nop => exact ends_of_finish rfl h rfl (.keeps nofun nofun)
  | srst => exact ends_of_finish rfl h rfl .srst
  | sclr => exact ends_of_finish rfl h rfl .sclr
  | xclr => exact ends_of_finish rfl h rfl (.xacc _ (.inl rfl))
  | xabs a => exact ends_of_finish rfl h rfl (.xacc _ (.inr ⟨a, rfl⟩))
  | xsum l c => exact ends_of_finish rfl h rfl (.keeps nofun nofun)
  | cinit => exact ends_of_finish rfl h rfl (.crcr _ (.inl rfl))
  | cabs a => exact ends_of_finish rfl h rfl (.crcr _ (.inr ⟨a, rfl⟩))
  | csum => exact ends_of_finish rfl h rfl (.keeps nofun nofun)
  | menc d c =>
    rcases execMenc_cases d c s with ⟨-, he⟩ | ⟨-, -, he⟩ | ⟨-, -, he⟩
    · exact ends_of_raise he h nofun nofun
    · exact ends_of_raise he h nofun nofun
    · exact ends_of_finish he h rfl (.keeps nofun nofun)
  | mdec => exact ends_of_finish rfl h (mdecResult_err ..) .mdec
  | prst => exact ends_of_finish rfl h rfl .prst
  | pfeed a => exact ends_of_finish rfl h (feedResult_err _) (.pfeed a)
  | pfeedn => exact ends_of_finish rfl h rfl .pfeedn
  | eload =>
    rcases execEload_cases s with ⟨-, he⟩ | ⟨hlen, he⟩
    · exact ends_of_raise he h nofun nofun
    · exact ends_of_finish he h rfl (.eload hlen)
  | eget k =>
    rcases execEget_cases k s with ⟨-, he⟩ | ⟨_, -, -, he⟩ | ⟨_, _, -, -, -, he⟩ | ⟨_, _, _, -, -, -, he⟩
    · exact ends_of_raise he h nofun nofun
    · exact ends_of_raise he h nofun nofun
    · cases he.symm.trans h
    · exact ends_of_finish he h rfl (.codec _ (.inr ⟨k, .inl rfl⟩))
  | eset k =>
    rcases execEset_cases k s with ⟨-, he⟩ | ⟨_, -, -, he⟩ | ⟨_, _, -, -, -, he⟩ | ⟨_, _, _, -, -, -, -, he⟩ |
      ⟨_, _, _, _, -, hb, -, hw, he⟩
    · exact ends_of_raise he h nofun nofun
    · exact ends_of_raise he h nofun nofun
    · exact ends_of_raise he h nofun nofun
    · cases he.symm.trans h
    · exact ends_of_finish he h rfl (.eset k _ hb (memWrite_length hw))
  | estore =>
    rcases execEstore_cases s with ⟨-, he⟩ | ⟨_, -, he⟩
    · exact ends_of_raise he h nofun nofun
    · exact ends_of_finish he h rfl (.keeps nofun nofun)
  | edec =>
    rcases execEdec_cases s with ⟨-, he⟩ | ⟨-, -, he⟩ | ⟨_, -, -, he⟩
    · exact ends_of_raise he h nofun nofun
    · cases he.symm.trans h
    · exact ends_of_finish he h rfl (.codec _ (.inl rfl))
  | eenc k =>
    rcases execEenc_cases k s with ⟨-, he⟩ | ⟨_, -, -, he⟩ | ⟨_, _, -, -, he⟩
    · exact ends_of_raise he h nofun nofun
    · exact ends_of_raise he h nofun nofun
    · exact ends_of_finish he h rfl (.codec _ (.inr ⟨k, .inr (.inr rfl)⟩))
  | fencC c a =>
    rcases execFencC_cases c a s with ⟨-, he⟩ | ⟨-, he⟩
    · exact ends_of_raise he h nofun nofun
    · exact ends_of_finish he h rfl (.keeps nofun nofun)
  | fencR c k a =>
    rcases execFencR_cases c k a s with ⟨-, he⟩ | ⟨-, he⟩
    · exact ends_of_raise he h nofun nofun
    · exact ends_of_finish he h rfl (.keeps nofun nofun)
  | fdec =>
    rcases execFdec_cases s with ⟨-, he⟩ | ⟨-, -, he⟩ | ⟨-, -, -, he⟩ | ⟨-, -, -, he⟩
    · exact ends_of_raise he h nofun nofun
    · exact ends_of_raise he h nofun nofun
    · exact ends_of_raise he h nofun nofun
    · exact ends_of_finish he h rfl (.keeps nofun nofun)

/-- A step with a next state is idle, or puts the next command on the port and executes it, or raises
IllegalOperation on its select code (20_memory R60, 30_encoding R75). -/
theorem step_cases {s t : State} (h : step s = .next t) :
    (s.pending = [] ∧ t = s) ∨
    ∃ c cs, s.pending = c :: cs ∧
      ((∃ i, decode c.cmdw = .instr i ∧ exec i ((s.withPending cs).withPort c) = .next t) ∨
        (∃ op, decode c.cmdw = .illegal op ∧
          t = afterFault .illegalOperation ((s.withPending cs).withPort c))) := by
  unfold step at h
  rcases present_cases s with ⟨-, hp⟩ | ⟨-, hidle, hp⟩ | ⟨c, cs, -, hc, -, hp⟩ | ⟨c, cs, -, -, -, hp⟩ <;>
    simp only [hp] at h
  · cases h
  · cases h; exact .inl ⟨hidle, rfl⟩
  · refine .inr ⟨c, cs, hc, ?_⟩
    cases hd : decode c.cmdw with
    | instr i => exact .inl ⟨i, rfl, by simpa only [hd] using h⟩
    | illegal op => exact .inr ⟨op, rfl, raise_next (by simpa only [hd] using h)⟩
  · cases h

/-! ### Who writes which register (10_state R22 to R24, R32, R33) -/

section OkEffect
variable {i : Instr} {s u : State} (h : OkEffect s i u)
include h

theorem OkEffect.xacc_writers : u.xacc = s.xacc ∨ i = .srst ∨ i = .xclr ∨ ∃ a, i = .xabs a := by
  cases h with
  | srst => exact .inr (.inl rfl)
  | xacc v hi => exact .inr (.inr hi)
  | _ => exact .inl rfl

theorem OkEffect.crcr_writers : u.crcr = s.crcr ∨ i = .srst ∨ i = .cinit ∨ ∃ a, i = .cabs a := by
  cases h with
  | srst => exact .inr (.inl rfl)
  | crcr v hi => exact .inr (.inr hi)
  | _ => exact .inl rfl

theorem OkEffect.parser_writers :
    u.parser = s.parser ∨ i = .srst ∨ i = .prst ∨ i = .pfeedn ∨ ∃ a, i = .pfeed a := by
  cases h with
  | srst => exact .inr (.inl rfl)
  | prst => exact .inr (.inr (.inl rfl))
  | pfeedn => exact .inr (.inr (.inr (.inl rfl)))
  | pfeed a => exact .inr (.inr (.inr (.inr ⟨a, rfl⟩)))
  | _ => exact .inl rfl

theorem OkEffect.record_writers : u.record = s.record ∨ i = .srst ∨ i = .eload ∨ ∃ k, i = .eset k := by
  cases h with
  | srst => exact .inr (.inl rfl)
  | eload => exact .inr (.inr (.inl rfl))
  | eset k => exact .inr (.inr (.inr ⟨k, rfl⟩))
  | _ => exact .inl rfl

theorem OkEffect.record_none (hu : u.record = none) : s.record = none ∨ i = .srst := by
  cases h with
  | srst => exact .inr rfl
  | eload => cases hu
  | eset => cases hu
  | _ => exact .inl hu

theorem OkEffect.port_eq : u.port = s.port := by
  cases h <;> rfl

theorem OkEffect.pending_eq : u.pending = s.pending := by
  cases h <;> rfl

theorem OkEffect.cfg_eq : u.cfg = s.cfg := by
  cases h <;> rfl

end OkEffect

/-- Settles O50: a fault writes none of these registers, and an `ok` end writes those of its effect. -/
theorem registersHaveTheirWritersOnly : Obligations.RegistersHaveTheirWritersOnly := by
  intro i s t h
  cases exec_ends h with
  | fault => exact ⟨.inl rfl, .inl rfl, .inl rfl, .inl rfl, .inl, rfl, rfl⟩
  | ok hr hu =>
    exact ⟨hu.xacc_writers, hu.crcr_writers, hu.parser_writers, hu.record_writers, hu.record_none,
      hu.port_eq, hu.pending_eq⟩

theorem exec_cfg {i : Instr} {s t : State} (h : exec i s = .next t) : t.cfg = s.cfg := by
  cases exec_ends h with
  | fault => rfl
  | ok hr hu => exact hu.cfg_eq

/-- Settles O55: neither an operation nor putting a command on the port writes the configuration. -/
theorem configurationIsFixed : Obligations.ConfigurationIsFixed := by
  intro s t h
  rcases step_cases h with ⟨-, rfl⟩ | ⟨c, cs, -, ⟨i, -, hi⟩ | ⟨op, -, rfl⟩⟩
  · rfl
  · rw [exec_cfg hi]; rfl
  · rfl

/-! ### `LASTERR` and the ports are outputs only (10_state R21, R35) -/

/-- Both ways of ending overwrite `LASTERR`, and no meaning reads it before. -/
theorem exec_withLasterr (i : Instr) (s : State) (x : Byte) : exec i (s.withLasterr x) = exec i s := by
  cases i <;> rfl

/-- Settles O48: each of the two ends puts one code in `ERR` and in `LASTERR`. -/
theorem lasterrIsErrOfLastOperation : Obligations.LasterrIsErrOfLastOperation := by
  refine ⟨fun i s t h => ?_, exec_withLasterr⟩
  cases exec_ends h with
  | fault _ _ e => exact ⟨_, rfl, rfl⟩
  | ok hr => exact ⟨_, rfl, hr.symm⟩

/-- Both ways of ending overwrite the result port, and no meaning reads it before. -/
theorem exec_result_update (i : Instr) (s : State) (o : Option Result) :
    exec i { s with result := o } = exec i s := by
  cases i <;> rfl

/-- Exchanging the commands to come commutes with every operation: no write touches them and no test reads them, so
once the tests are decided both sides are one record. -/
theorem exec_withPending (i : Instr) (s : State) (q : List Command) :
    exec i (s.withPending q) = mapNext (fun t => t.withPending q) (exec i s) := by
  cases i with
  | menc d c => simp only [exec, execMenc, apply_ite (mapNext _)]; rfl
  | eload => simp only [exec, execEload, apply_ite (mapNext _)]; rfl
  | eget k =>
    simp only [exec, execEget, State.withPending_cfg, State.withPending_record]
    cases s.cfg.schema[k.toNat]? with
    | none => rfl
    | some e =>
      cases s.record with
      | none => rfl
      | some b => cases hv : memRead b e.offset e.length <;> simp only [hv] <;> rfl
  | eset k =>
    simp only [exec, execEset, State.withPending_cfg, State.withPending_record, State.ibuf_eq, State.withPending_port]
    cases s.cfg.schema[k.toNat]? with
    | none => rfl
    | some e =>
      cases s.record with
      | none => rfl
      | some b =>
        cases hv : encodeField e.kind e.length s.port.ibuf with
        | none => simp only [hv]; rfl
        | some v => cases hw : memWrite b e.offset v <;> simp only [hv, hw] <;> rfl
  | estore =>
    simp only [exec, execEstore, State.withPending_record]
    cases s.record <;> rfl
  | edec =>
    simp only [exec, execEdec, apply_ite (mapNext _), State.withPending_cfg, State.ibuf_eq, State.withPending_port]
    cases edecFields s.port.ibuf 0 s.cfg.schema <;> rfl
  | eenc k =>
    simp only [exec, execEenc, State.withPending_cfg, State.ibuf_eq, State.withPending_port]
    cases s.cfg.schema[k.toNat]? with
    | none => rfl
    | some e => cases hv : encodeField e.kind e.length s.port.ibuf <;> simp only [hv] <;> rfl
  | fencC c a => simp only [exec, execFencC, apply_ite (mapNext _)]; rfl
  | fencR c k a => simp only [exec, execFencR, apply_ite (mapNext _)]; rfl
  | fdec => simp only [exec, execFdec, apply_ite (mapNext _)]; rfl
  | _ => rfl

/-- Settles O57: the result port is only overwritten, and the commands to come are carried along. -/
theorem operationsReadNoEarlierResult : Obligations.OperationsReadNoEarlierResult :=
  ⟨exec_result_update, exec_withPending⟩

/-! ### The flags of `STATUS` (10_state R34) -/

/-- `b` is `STATUS` after `a` with no flag cleared and only bits in `P` newly set. -/
structure RaisesOnly (P : Nat → Prop) (a b : Byte) : Prop where
  keeps : ∀ n, a.getLsbD n = true → b.getLsbD n = true
  only : ∀ n, b.getLsbD n = true → a.getLsbD n = true ∨ P n

section RaisesOnly
variable {P Q : Nat → Prop} {a b c : Byte} {n : Nat}

theorem RaisesOnly.refl (P : Nat → Prop) (a : Byte) : RaisesOnly P a a := ⟨fun _ => id, fun _ => .inl⟩

theorem RaisesOnly.trans (h : RaisesOnly P a b) (h' : RaisesOnly P b c) : RaisesOnly P a c where
  keeps n ha := h'.keeps n (h.keeps n ha)
  only n hc := (h'.only n hc).elim (h.only n) .inr

theorem RaisesOnly.mono (h : RaisesOnly P a b) (hPQ : ∀ n, P n → Q n) : RaisesOnly Q a b :=
  ⟨h.keeps, fun n hb => (h.only n hb).imp_right (hPQ n)⟩

theorem RaisesOnly.set_before (h : RaisesOnly P a b) (hn : ¬ P n) (hb : b.getLsbD n = true) :
    a.getLsbD n = true :=
  (h.only n hb).resolve_right hn

theorem RaisesOnly.of_raised (h : RaisesOnly P a b) (ha : a.getLsbD n = false) (hb : b.getLsbD n = true) : P n :=
  (h.only n hb).resolve_left (by simp [ha])

end RaisesOnly

theorem raiseFlag_raisesOnly (f : Flag) (st : Byte) : RaisesOnly (· = flagBit f) st (raiseFlag f st) := by
  constructor
  · intro n hn; rw [raiseFlag_getLsbD, hn, Bool.true_or]
  · intro n hn; simpa only [raiseFlag_getLsbD, Bool.or_eq_true, decide_eq_true_eq] using hn

theorem raiseFlagIf_raisesOnly (c : Bool) (f : Flag) (st : Byte) :
    RaisesOnly (· = flagBit f) st (raiseFlagIf c f st) := by
  cases c
  · exact .refl _ st
  · exact raiseFlag_raisesOnly f st

/-- The parser's events raise BADDIR and MCKERR only, bits 0 and 1. -/
theorem eventFlags_raisesOnly (st : Byte) (ev : Event) : RaisesOnly (· < 2) st (eventFlags st ev) := by
  cases ev with
  | none => exact .refl _ st
  | frame f => exact .refl _ st
  | badDir got => exact (raiseFlag_raisesOnly .badDir st).mono fun n hn => by subst hn; decide
  | ckErr cmd exp got => exact (raiseFlag_raisesOnly .mckErr st).mono fun n hn => by subst hn; decide

theorem eventsFlags_raisesOnly (st : Byte) (evs : List (Nat × Event)) :
    RaisesOnly (· < 2) st (eventsFlags st evs) := by
  induction evs generalizing st with
  | nil => exact .refl _ st
  | cons e es ih => exact (eventFlags_raisesOnly st e.2).trans (ih _)

theorem mdecScan_raisesOnly (p : Parser) (st : Byte) (i : Nat) (bs : List Byte) :
    RaisesOnly (· < 2) st (mdecScan p st i bs).1 := by
  induction bs generalizing p st i with
  | nil => exact .refl _ st
  | cons b bs ih =>
    rw [mdecScan_cons]
    cases (pstep p b).2 with
    | frame f => exact .refl _ st
    | none => exact ih _ st _
    | badDir got => exact (eventFlags_raisesOnly st (.badDir got)).trans (ih _ _ _)
    | ckErr cmd exp got => exact (eventFlags_raisesOnly st (.ckErr cmd exp got)).trans (ih _ _ _)

/-- The bits of `STATUS` that `i` may set when it ends `ok` (the rows of R34). -/
def okRaises (i : Instr) (n : Nat) : Prop :=
  (n < 2 ∧ (i = .mdec ∨ i = .pfeedn ∨ ∃ a, i = .pfeed a)) ∨
    (n = 2 ∧ (i = .edec ∨ ∃ k, i = .eget k ∨ i = .eset k ∨ i = .eenc k))

theorem OkEffect.status_cases {i : Instr} {s u : State} (h : OkEffect s i u) :
    ((i = .sclr ∨ i = .srst) ∧ u.status = 0x00) ∨
    (i ≠ .sclr ∧ i ≠ .srst ∧ RaisesOnly (okRaises i) s.status u.status) := by
  cases h with
  | srst => exact .inl ⟨.inr rfl, rfl⟩
  | sclr => exact .inl ⟨.inl rfl, rfl⟩
  | keeps hclear hreset => exact .inr ⟨hclear, hreset, .refl ..⟩
  | xacc v hi => exact .inr ⟨by rintro rfl; simp at hi, by rintro rfl; simp at hi, .refl ..⟩
  | crcr v hi => exact .inr ⟨by rintro rfl; simp at hi, by rintro rfl; simp at hi, .refl ..⟩
  | prst => exact .inr ⟨nofun, nofun, .refl ..⟩
  | eload => exact .inr ⟨nofun, nofun, .refl ..⟩
  | mdec =>
    exact .inr ⟨nofun, nofun, (mdecScan_raisesOnly ..).mono fun n hn => .inl ⟨hn, .inl rfl⟩⟩
  | pfeed a =>
    exact .inr ⟨nofun, nofun, (eventFlags_raisesOnly ..).mono fun n hn => .inl ⟨hn, .inr (.inr ⟨a, rfl⟩)⟩⟩
  | pfeedn =>
    exact .inr ⟨nofun, nofun, (eventsFlags_raisesOnly ..).mono fun n hn => .inl ⟨hn, .inr (.inl rfl)⟩⟩
  | codec na hi =>
    exact .inr ⟨by rintro rfl; simp at hi, by rintro rfl; simp at hi,
      (raiseFlagIf_raisesOnly ..).mono fun n hn => .inr ⟨hn, hi⟩⟩
  | eset k na =>
    exact .inr ⟨nofun, nofun, (raiseFlagIf_raisesOnly ..).mono fun n hn => .inr ⟨hn, .inr ⟨k, .inr (.inl rfl)⟩⟩⟩

/-- Settles O49: a fault raises FAULT alone; an `ok` end clears `STATUS` or raises what the operation's row allows. -/
theorem statusFlagsAreSticky : Obligations.StatusFlagsAreSticky := by
  intro i s t h
  cases exec_ends h with
  | fault hclear hreset e =>
    have raises : RaisesOnly (· = 3) s.status (afterFault e s).status := raiseFlag_raisesOnly .fault s.status
    have bit3 : (afterFault e s).status.getLsbD 3 = true := by simp [raiseFlag_getLsbD, flagBit]
    exact ⟨fun hi => (hi.elim hclear hreset).elim, fun _ _ => raises.keeps,
      fun n hn => raises.set_before (by omega), fun n hn hs ht => absurd (raises.of_raised hs ht) (by omega),
      fun hs ht => absurd (raises.of_raised hs ht) (by decide),
      fun _ => ⟨fun _ => errCode_ne_zero e, fun _ => bit3⟩⟩
  | @ok r u hr hu =>
    rcases hu.status_cases with ⟨hi, hzero⟩ | ⟨hclear, hreset, raises⟩
    · have unset : ∀ n, (afterOk r u).status.getLsbD n = true → False := by simp [hzero]
      exact ⟨fun _ => hzero, fun hclear hreset => (hi.elim hclear hreset).elim, fun n _ ht => (unset n ht).elim,
        fun n _ _ ht => (unset n ht).elim, fun _ ht => (unset 2 ht).elim,
        fun _ => ⟨fun ht => (unset 3 ht).elim, fun hne => absurd rfl hne⟩⟩
    · refine ⟨fun hi => (hi.elim hclear hreset).elim, fun _ _ => raises.keeps,
        fun n hn => raises.set_before (by unfold okRaises; omega),
        fun n hn hs ht => ?_, fun hs ht => ?_, fun hs => ⟨fun ht => ?_, fun hne => absurd rfl hne⟩⟩
      · rcases raises.of_raised hs ht with ⟨-, hi⟩ | ⟨rfl, -⟩
        · exact hi
        · omega
      · rcases raises.of_raised hs ht with ⟨hlt, -⟩ | ⟨-, hi⟩
        · omega
        · exact hi
      · rcases raises.of_raised hs ht with ⟨hlt, -⟩ | ⟨heq, -⟩ <;> omega

/-! ### Reset -/

/-- Settles O51: `SRST` ends `ok` on the registers that reset gives. -/
theorem resetValues : Obligations.ResetValues := by
  refine ⟨fun cfg => ⟨rfl, rfl, rfl, rfl, rfl, rfl, rfl, rfl⟩, fun s => ?_⟩
  exact finish_eq Result.ok s.resetRegisters

/-! ### The state invariant (10_state R38) -/

theorem cleared_lt_sixteen : (0x00 : Byte).toNat < 16 := by decide

theorem State.inv_iff {s : State} :
    s.inv = true ↔ s.cfg.wf = true ∧ s.parser.ok = true ∧ s.recordOk = true ∧ s.status.toNat < 16 ∧
      s.lasterr.toNat ≤ 0x0A := by
  simp only [State.inv, Bool.and_eq_true, decide_eq_true_eq, and_assoc]

/-- Settles O52: the idle parser and the empty record meet R38 and R32 in every block that can be built. -/
theorem resetMeetsStateInvariant : Obligations.ResetMeetsStateInvariant := by
  have reset : ∀ cfg : Config, cfg.wf = true → (State.resetWith cfg).inv = true := fun cfg hwf =>
    State.inv_iff.mpr ⟨hwf, rfl, rfl, cleared_lt_sixteen, Nat.zero_le _⟩
  exact ⟨reset, reset Config.example (by decide)⟩

theorem mspChecksum_append (l c b : Byte) (p : List Byte) :
    mspChecksum l c (p ++ [b]) = mspChecksum l c p ^^^ b := by
  simp [mspChecksum, BitVec.xor_assoc]

/-- One fed byte keeps the table of R38, row by row of R143; each return to `Parser.idle` meets it at once. -/
theorem pstep_ok {p : Parser} (hp : p.ok = true) (b : Byte) : (pstep p b).1.ok = true := by
  rcases pstep_cases p b with ⟨hs, -, he⟩ | ⟨-, -, he⟩ | ⟨hs, -, he⟩ | ⟨-, -, he⟩ | ⟨hs, hb, he⟩ | ⟨-, -, he⟩ |
    ⟨hs, he⟩ | ⟨hs, hlen, he⟩ | ⟨hs, hlen, he⟩ | ⟨hs, hlt, he⟩ | ⟨hs, hle, he⟩ | ⟨-, -, he⟩ | ⟨-, -, he⟩ <;>
    rw [he]
  · simpa only [Parser.ok, hs] using hp
  · exact hp
  · simpa only [Parser.ok, hs] using hp
  · rfl
  · simp only [Parser.ok, hs, Bool.and_eq_true, decide_eq_true_eq] at hp ⊢
    obtain ⟨⟨⟨⟨-, hplen⟩, hpcmd⟩, hpay⟩, hpck⟩ := hp
    exact ⟨⟨⟨⟨hb, hplen⟩, hpcmd⟩, hpay⟩, hpck⟩
  · rfl
  · simp only [Parser.ok, hs, Bool.and_eq_true, decide_eq_true_eq] at hp ⊢
    obtain ⟨⟨⟨⟨hmarker, -⟩, hpcmd⟩, hpay⟩, -⟩ := hp
    exact ⟨⟨⟨hmarker, hpcmd⟩, hpay⟩, trivial⟩
  · simp only [Parser.ok, hs, Bool.and_eq_true, decide_eq_true_eq] at hp ⊢
    obtain ⟨⟨⟨hmarker, -⟩, hpay⟩, hpck⟩ := hp
    have hpos : 0 < p.plen.toNat := Nat.pos_of_ne_zero fun h => hlen (BitVec.eq_of_toNat_eq h)
    exact ⟨⟨hmarker, by rwa [hpay]⟩, by simp [hpck, hpay, mspChecksum]⟩
  · simp only [Parser.ok, hs, Bool.and_eq_true, decide_eq_true_eq] at hp ⊢
    obtain ⟨⟨⟨hmarker, -⟩, hpay⟩, hpck⟩ := hp
    exact ⟨⟨hmarker, by rw [hpay, hlen]; rfl⟩, by simp [hpck, hpay, mspChecksum]⟩
  · simp only [Parser.ok, hs, Bool.and_eq_true, decide_eq_true_eq] at hp ⊢
    obtain ⟨⟨hmarker, -⟩, hpck⟩ := hp
    exact ⟨⟨hmarker, by rwa [List.length_append]⟩, by rw [mspChecksum_append, hpck]⟩
  · simp only [Parser.ok, hs, Bool.and_eq_true, decide_eq_true_eq] at hp ⊢
    obtain ⟨⟨hmarker, hlt⟩, hpck⟩ := hp
    exact ⟨⟨hmarker, by rw [List.length_append, List.length_singleton]; omega⟩,
      by rw [mspChecksum_append, hpck]⟩
  · rfl
  · rfl

theorem feedParser_ok {p : Parser} (hp : p.ok = true) (bs : List Byte) : (feedParser p bs).ok = true := by
  induction bs generalizing p with
  | nil => exact hp
  | cons b bs ih => exact ih (pstep_ok hp b)

theorem recordOk_of_some {s : State} {b : List Byte} (hb : s.record = some b) :
    s.recordOk = true ↔ b.length = s.cfg.recLen := by
  simp [State.recordOk, hb]

theorem recordOk_congr {s t : State} (hrec : t.record = s.record) (hcfg : t.cfg = s.cfg) :
    t.recordOk = s.recordOk := by
  simp only [State.recordOk, hrec, hcfg]

section OkEffect
variable {i : Instr} {s u : State} (h : OkEffect s i u)
include h

theorem OkEffect.keeps_parser_ok (hs : s.parser.ok = true) : u.parser.ok = true := by
  cases h with
  | srst => rfl
  | prst => rfl
  | pfeed a => exact pstep_ok hs a
  | pfeedn => exact feedParser_ok hs s.ibuf
  | _ => exact hs

theorem OkEffect.keeps_recordOk (hs : s.recordOk = true) : u.recordOk = true := by
  cases h with
  | srst => rfl
  | eload hlen => exact (recordOk_of_some rfl).mpr hlen
  | eset k na hb hlen => exact (recordOk_of_some rfl).mpr (hlen.trans ((recordOk_of_some hb).mp hs))
  | _ => exact hs

theorem OkEffect.status_lt_sixteen (hs : s.status.toNat < 16) : u.status.toNat < 16 := by
  cases h with
  | srst => exact cleared_lt_sixteen
  | sclr => exact cleared_lt_sixteen
  | mdec => exact mdecScan_lt_sixteen _ _ _ hs
  | pfeed a => exact eventFlags_lt_sixteen _ hs
  | pfeedn => exact eventsFlags_lt_sixteen _ hs
  | codec na => exact raiseFlagIf_lt_sixteen na _ hs
  | eset k na => exact raiseFlagIf_lt_sixteen na _ hs
  | _ => exact hs

end OkEffect

/-- A fault adds FAULT to `STATUS` and a code of R240 to `LASTERR`, both inside the invariant. -/
theorem afterFault_inv (e : Err) {s : State} (hs : s.inv = true) : (afterFault e s).inv = true := by
  obtain ⟨hwf, hparser, hrecord, hstatus, -⟩ := State.inv_iff.mp hs
  exact State.inv_iff.mpr ⟨hwf, hparser, hrecord, raiseFlag_lt_sixteen .fault hstatus, errCode_le e⟩

theorem exec_inv {i : Instr} {s t : State} (hs : s.inv = true) (h : exec i s = .next t) : t.inv = true := by
  cases exec_ends h with
  | fault _ _ e => exact afterFault_inv e hs
  | ok hr hu =>
    obtain ⟨hwf, hparser, hrecord, hstatus, -⟩ := State.inv_iff.mp hs
    exact State.inv_iff.mpr ⟨by rw [afterOk_cfg, hu.cfg_eq, hwf], hu.keeps_parser_ok hparser,
      hu.keeps_recordOk hrecord, hu.status_lt_sixteen hstatus, Nat.zero_le _⟩

/-- Putting a command on the port writes no register. -/
theorem presented_inv {s : State} (hs : s.inv = true) (c : Command) (cs : List Command) :
    ((s.withPending cs).withPort c).inv = true := hs

/-- Settles O53: an idle step changes nothing, and every end of an operation keeps the invariant. -/
theorem stepKeepsStateInvariant : Obligations.StepKeepsStateInvariant := by
  intro s t hs h
  rcases step_cases h with ⟨-, rfl⟩ | ⟨c, cs, -, ⟨i, -, hi⟩ | ⟨op, -, rfl⟩⟩
  · exact hs
  · exact exec_inv (presented_inv hs c cs) hi
  · exact afterFault_inv _ (presented_inv hs c cs)

end Sys2Proof.Machine
end

section
/-! 20_memory: presenting and executing a command, and that every access and every output stays inside its buffer. -/

namespace Sys2Proof.Machine

/-! ### What a step makes of what is presented (20_memory R52, R60) -/

section step
variable {s s' : State} {c : Command}

theorem step_of_refuse {r : Refusal} (h : present s = .refuse r) : step s = .refused r := by
  rw [step, h]

theorem step_of_idle (h : present s = .idle) : step s = .next s := by
  rw [step, h]

theorem step_of_instr {i : Instr} (h : present s = .command c s') (hd : decode c.cmdw = .instr i) :
    step s = exec i s' := by
  simp only [step, h, hd]

theorem step_of_illegal {op : Byte} (h : present s = .command c s') (hd : decode c.cmdw = .illegal op) :
    step s = raise .illegalOperation s' := by
  simp only [step, h, hd]

end step

/-- Settles O5: a command within IBUF_SIZE is presented, and what is presented is decoded and executed. -/
theorem stepExecutesDecodedCommand : Obligations.StepExecutesDecodedCommand := by
  intro s c cs i hwf hpending hlen hd
  have hfits : c.presentable s.cfg = true := decide_eq_true hlen
  exact step_of_instr (by rw [present, if_pos hwf, hpending]; exact if_pos hfits) hd

/-- Settles O7: the configuration is tested first, then the length of the next command. -/
theorem stepRefusesWhatCannotBePresented : Obligations.StepRefusesWhatCannotBePresented := by
  refine ⟨fun s hwf => ?_, fun s c cs hwf hpending hlen => ?_⟩
  · exact step_of_refuse (if_neg (by simp [hwf]))
  · have htoolong : ¬ c.presentable s.cfg = true := fun h => Nat.not_lt.mpr (of_decide_eq_true h) hlen
    exact step_of_refuse (by rw [present, if_pos hwf, hpending]; exact if_neg htoolong)

/-! ### Accesses inside the space (00_scope R7, R11) -/

/-- `encode_field` fills the field exactly; a scalar does so because its field is one byte (00_scope R7 (d)). -/
theorem encodeField_length {k : Kind} {n : Nat} {v bytes : List Byte} (hscalar : k = .scalarU8 → n = 1)
    (h : encodeField k n v = some bytes) : bytes.length = n := by
  cases k <;> simp only [encodeField, Option.ite_none_right_eq_some, Option.some.injEq] at h <;>
    obtain ⟨hlen, rfl⟩ := h
  case scalarU8 => rw [hlen, hscalar rfl]
  case asciiString => exact pad0_length hlen
  case byteArray => exact hlen
  case opaqueBlock => exact hlen

theorem decodeField_length_le (k : Kind) (v : List Byte) : (decodeField k v).length ≤ v.length := by
  cases k with
  | asciiString => exact rtrim0_length_le v
  | _ => exact Nat.le_refl _

theorem memRead_ne_none {space : List Byte} {i n : Nat} (h : i + n ≤ space.length) : memRead space i n ≠ none := by
  rw [memRead, if_pos h]; nofun

theorem memWrite_ne_none {space v : List Byte} {i : Nat} (h : i + v.length ≤ space.length) :
    memWrite space i v ≠ none := by
  rw [memWrite, if_pos h]; nofun

theorem edecFields_ne_none {block : List Byte} {es : List SchemaEntry} (k : Nat)
    (h : ∀ e ∈ es, e.offset + e.length ≤ block.length) : edecFields block k es ≠ none := by
  induction es generalizing k with
  | nil => nofun
  | cons e es ih =>
    obtain ⟨he, hes⟩ := List.forall_mem_cons.mp h
    obtain ⟨bytes, hbytes⟩ := Option.ne_none_iff_exists'.mp (memRead_ne_none he)
    obtain ⟨rest, hrest⟩ := Option.ne_none_iff_exists'.mp (ih (k + 1) hes)
    simp [edecFields, hbytes, hrest]

/-! ### Frames handed over by the parser carry at most 255 bytes (10_state R38) -/

/-- Only the checksum byte completes a frame, and before it R38 ties the payload's length to the length byte. -/
theorem pstep_frame_payload_le {p : Parser} {b : Byte} {f : Frame} (hp : p.ok = true)
    (h : (pstep p b).2 = .frame f) : f.payload.length ≤ 255 := by
  have hrow : p.pst = .checksum ∧ f = ⟨p.pdir, p.pcmd, p.plen, p.pay⟩ := by
    rcases pstep_cases p b with ⟨-, -, he⟩ | ⟨-, -, he⟩ | ⟨-, -, he⟩ | ⟨-, -, he⟩ | ⟨-, -, he⟩ | ⟨-, -, he⟩ |
      ⟨-, he⟩ | ⟨-, -, he⟩ | ⟨-, -, he⟩ | ⟨-, -, he⟩ | ⟨-, -, he⟩ | ⟨hs, -, he⟩ | ⟨-, -, he⟩ <;>
      rw [he] at h <;> cases h
    exact ⟨hs, rfl⟩
  obtain ⟨hs, rfl⟩ := hrow
  simp only [Parser.ok, hs, Bool.and_eq_true, decide_eq_true_eq] at hp
  obtain ⟨⟨-, hlen⟩, -⟩ := hp
  have := p.plen.isLt
  change p.pay.length ≤ 255
  omega

theorem mdecScan_frame_payload_le {p : Parser} {st : Byte} {i n : Nat} {bs : List Byte} {f : Frame} (hp : p.ok = true)
    (h : (mdecScan p st i bs).2 = some (f, n)) : f.payload.length ≤ 255 := by
  induction bs generalizing p st i with
  | nil => cases h
  | cons b bs ih =>
    rw [mdecScan_cons] at h
    cases hev : (pstep p b).2 <;> rw [hev] at h
    case frame g => cases h; exact pstep_frame_payload_le hp hev
    all_goals exact ih (pstep_ok hp b) h

theorem feedResult_olen_le {ev : Event} (h : ∀ f, ev = .frame f → f.payload.length ≤ 255) :
    (feedResult ev).olen ≤ 255 := by
  cases ev with
  | frame f => exact h f rfl
  | _ => exact Nat.zero_le _

theorem mdecResult_olen_le {n : Nat} {r : Option (Frame × Nat)}
    (h : ∀ f used, r = some (f, used) → f.payload.length ≤ 255) : (mdecResult n r).olen ≤ 255 := by
  cases r with
  | none => exact Nat.zero_le _
  | some fu => exact h fu.1 fu.2 rfl

/-! ### The frames the encoders build -/

theorem mspFrame_length (d c : Byte) (p : List Byte) : (mspFrame d c p).length = p.length + 6 := by
  simp [mspFrame]

theorem fwCommandForm_length (c : Byte) (a : Half) (q : List Byte) :
    (fwCommandForm c a q).length = (fwParams q).length + 7 := by
  simp [fwCommandForm, withCrc, fwHead]

theorem fwResponseForm_length (c k : Byte) (a : Half) (q : List Byte) :
    (fwResponseForm c k a q).length = (fwParams q).length + 8 := by
  simp [fwResponseForm, withCrc, fwHead]

/-! ### Every operation completes, within the output buffer -/

/-- The answer is a next state, and the output it shows has at most `n` bytes. -/
def Completes (n : Nat) (a : Answer) : Prop := ∃ t r, a = .next t ∧ t.result = some r ∧ r.olen ≤ n

theorem completes_of_raise {n : Nat} {a : Answer} {e : Err} {s : State} (h : a = raise e s) : Completes n a :=
  ⟨_, _, h, rfl, Nat.zero_le n⟩

theorem completes_of_finish {n : Nat} {a : Answer} {r : Result} {s : State} (h : a = finish r s)
    (hlen : r.olen ≤ n) : Completes n a :=
  ⟨_, r, h, rfl, hlen⟩

/-- The bound of 20_memory R53, operation by operation: 264 is the longest FENC.R frame, and an output made from a
record or a field has at most RECLEN bytes. -/
theorem exec_completes {s : State} (hs : s.inv = true) (i : Instr) : Completes (max 264 s.cfg.recLen) (exec i s) := by
  obtain ⟨hwf, hparser, hrecord, -, -⟩ := State.inv_iff.mp hs
  have le264 {n : Nat} (h : n ≤ 264) : n ≤ max 264 s.cfg.recLen := le_max_of_le_left h
  have leRec {n : Nat} (h : n ≤ s.cfg.recLen) : n ≤ max 264 s.cfg.recLen := le_max_of_le_right h
  have field {k : Nat} {e : SchemaEntry} (he : s.cfg.schema[k]? = some e) :=
    Config.wf_entry hwf (List.mem_of_getElem? he)
  have whole {b : List Byte} (hb : s.record = some b) : b.length = s.cfg.recLen := (recordOk_of_some hb).mp hrecord
  cases i with
  | menc d c =>
    rcases execMenc_cases d c s with ⟨-, he⟩ | ⟨-, -, he⟩ | ⟨hlen, -, he⟩
    · exact completes_of_raise he
    · exact completes_of_raise he
    · rw [State.ilen] at hlen
      exact completes_of_finish he (le264 ((mspFrame_length d c s.ibuf).le.trans (by omega)))
  | mdec =>
    have hlen := mdecResult_olen_le (n := s.ilen) fun _ _ =>
      mdecScan_frame_payload_le (p := Parser.idle) (st := s.status) (i := 0) (bs := s.ibuf) rfl
    exact completes_of_finish rfl (le264 (hlen.trans (by decide)))
  | pfeed a =>
    have hlen := feedResult_olen_le fun _ => pstep_frame_payload_le (b := a) hparser
    exact completes_of_finish rfl (le264 (hlen.trans (by decide)))
  | eload =>
    rcases execEload_cases s with ⟨-, he⟩ | ⟨-, he⟩
    · exact completes_of_raise he
    · exact completes_of_finish he (Nat.zero_le _)
  | eget k =>
    rcases execEget_cases k s with ⟨-, he⟩ | ⟨_, -, -, he⟩ | ⟨e, b, hk, hb, hread, -⟩ | ⟨e, b, v, hk, -, hread, he⟩
    · exact completes_of_raise he
    · exact completes_of_raise he
    · obtain ⟨-, hinside, -⟩ := field hk
      exact absurd hread (memRead_ne_none (by rwa [whole hb]))
    · obtain ⟨-, hinside, -⟩ := field hk
      have hlen := decodeField_length_le e.kind v
      rw [memRead_length hread] at hlen
      exact completes_of_finish he (leRec (hlen.trans (by omega)))
  | eset k =>
    rcases execEset_cases k s with ⟨-, he⟩ | ⟨_, -, -, he⟩ | ⟨_, _, -, -, -, he⟩ | ⟨e, b, v, hk, hb, henc, hwrite, -⟩ |
      ⟨_, _, _, _, -, -, -, -, he⟩
    · exact completes_of_raise he
    · exact completes_of_raise he
    · exact completes_of_raise he
    · obtain ⟨-, hinside, hscalar⟩ := field hk
      exact absurd hwrite (memWrite_ne_none (by rwa [encodeField_length hscalar henc, whole hb]))
    · exact completes_of_finish he (Nat.zero_le _)
  | estore =>
    rcases execEstore_cases s with ⟨-, he⟩ | ⟨b, hb, he⟩
    · exact completes_of_raise he
    · exact completes_of_finish he (leRec (whole hb).le)
  | edec =>
    rcases execEdec_cases s with ⟨-, he⟩ | ⟨hlen, hfields, -⟩ | ⟨_, -, -, he⟩
    · exact completes_of_raise he
    · refine absurd hfields (edecFields_ne_none 0 fun e he => ?_)
      obtain ⟨-, hinside, -⟩ := Config.wf_entry hwf he
      exact hinside.trans hlen.ge
    · exact completes_of_finish he (Nat.zero_le _)
  | eenc k =>
    rcases execEenc_cases k s with ⟨-, he⟩ | ⟨_, -, -, he⟩ | ⟨e, v, hk, henc, he⟩
    · exact completes_of_raise he
    · exact completes_of_raise he
    · obtain ⟨-, hinside, hscalar⟩ := field hk
      exact completes_of_finish he (leRec ((encodeField_length hscalar henc).le.trans (by omega)))
  | fencC c a =>
    rcases execFencC_cases c a s with ⟨-, he⟩ | ⟨hlen, he⟩
    · exact completes_of_raise he
    · obtain ⟨-, hparams⟩ := fwParams_length hlen
      exact completes_of_finish he (le264 ((fwCommandForm_length c a s.ibuf).le.trans (by omega)))
  | fencR c k a =>
    rcases execFencR_cases c k a s with ⟨-, he⟩ | ⟨hlen, he⟩
    · exact completes_of_raise he
    · obtain ⟨-, hparams⟩ := fwParams_length hlen
      exact completes_of_finish he (le264 ((fwResponseForm_length c k a s.ibuf).le.trans (by omega)))
  | fdec =>
    rcases execFdec_cases s with ⟨-, he⟩ | ⟨-, -, he⟩ | ⟨-, -, -, he⟩ | ⟨-, hlen, -, he⟩
    · exact completes_of_raise he
    · exact completes_of_raise he
    · exact completes_of_raise he
    · have hcount := countOf_le (byteAt s.ibuf 4)
      rw [State.ilen] at hlen
      exact completes_of_finish he (le264 ((fdecResult_olen (by omega)).le.trans (by omega)))
  | _ => exact completes_of_finish rfl (Nat.zero_le _)

/-- From a state of the invariant a step answers a next state or a refusal, and a presented command completes. -/
theorem step_completes {s : State} (hs : s.inv = true) :
    (∃ r, step s = .refused r) ∨ (s.pending = [] ∧ step s = .next s) ∨ Completes (max 264 s.cfg.recLen) (step s) := by
  rcases present_cases s with ⟨-, hp⟩ | ⟨-, hidle, hp⟩ | ⟨c, cs, -, -, -, hp⟩ | ⟨_, _, -, -, -, hp⟩
  · exact .inl ⟨_, step_of_refuse hp⟩
  · exact .inr (.inl ⟨hidle, step_of_idle hp⟩)
  · refine .inr (.inr ?_)
    cases hd : decode c.cmdw with
    | instr i => rw [step_of_instr hp hd]; exact exec_completes (presented_inv hs c cs) i
    | illegal op => exact completes_of_raise (step_of_illegal hp hd)
  · exact .inl ⟨_, step_of_refuse hp⟩

/-- Settles O54: every field lies inside the record (00_scope R7) and the record is whole (10_state R32), so each
operation, and with it each step, reads and writes inside its space. -/
theorem noAccessOutsideBuffer : Obligations.NoAccessOutsideBuffer := by
  refine ⟨fun s hs => ?_, fun s i hs => ?_⟩
  · rintro ⟨r, hfault⟩
    rcases step_completes hs with ⟨_, h⟩ | ⟨-, h⟩ | ⟨_, _, h, -⟩ <;> cases hfault.symm.trans h
  · obtain ⟨t, _, h, -⟩ := exec_completes hs i
    exact ⟨t, h⟩

/-- Settles O56: the bound of `exec_completes`, which OBUF_SIZE is at least in a well-formed configuration
(00_scope R6). -/
theorem outputFitsOutputBuffer : Obligations.OutputFitsOutputBuffer := by
  intro s t hs hpending h
  obtain ⟨hwf, -⟩ := State.inv_iff.mp hs
  obtain ⟨-, -, -, -, hobuf⟩ := Config.wf_sizes hwf
  rcases step_completes hs with ⟨_, hrefused⟩ | ⟨hidle, -⟩ | ⟨t', r, hnext, hr, hlen⟩
  · cases h.symm.trans hrefused
  · exact absurd hidle hpending
  · cases h.symm.trans hnext
    exact ⟨r, hr, hlen, hlen.trans hobuf⟩

end Sys2Proof.Machine
end

section
/-! 30_encoding: what a command word selects, and what of it an operation reads. -/

namespace Sys2Proof

open Laws.EncodedOp (and_ff and_ffff)

/-! ### Decoding what the encoder wrote (R70 to R72) -/

/-- Settles O1: the decoder reads each field back from the packed word, and the select code picks the operation. -/
theorem decodeOfEncode : Obligations.DecodeOfEncode := by
  intro i
  cases i <;> simp only [encode, decode, opOf_pack, aOf_pack, bOf_pack, wOf_pack] <;> rfl

theorem encode_injective {i j : Instr} (h : encode i = encode j) : i = j :=
  Decoded.instr.inj (by rw [← decodeOfEncode i, h, decodeOfEncode j])

/-! ### The fields a mask keeps (R70, R71) -/

theorem pack_fields (w : CmdWord) : pack (opOf w) (aOf w) (bOf w) (wOf w) = w := by
  apply BitVec.eq_of_toNat_eq
  have := w.isLt
  simp only [pack_toNat, opOf, aOf, bOf, wOf, BitVec.extractLsb'_toNat, Nat.shiftRight_eq_div_pow]
  omega

theorem and_pack (w : CmdWord) (m1 m2 m3 : Byte) (m4 : Half) :
    w &&& pack m1 m2 m3 m4 = pack (opOf w &&& m1) (aOf w &&& m2) (bOf w &&& m3) (wOf w &&& m4) := by
  rw [← pack_and, pack_fields]

/-- A mask that keeps `OP` keeps of the operand fields what its own fields keep. -/
theorem and_mask {w m : CmdWord} {m2 m3 a b : Byte} {m4 c : Half} (hm : m = pack 0xFF m2 m3 m4)
    (ha : aOf w &&& m2 = a) (hb : bOf w &&& m3 = b) (hw : wOf w &&& m4 = c) : w &&& m = pack (opOf w) a b c := by
  rw [hm, and_pack, and_ff, ha, hb, hw]

section usedFields
variable (w : CmdWord)

theorem and_opMask : w &&& 0xFF00000000 = pack (opOf w) 0 0 0 :=
  and_mask (by decide) BitVec.and_zero BitVec.and_zero BitVec.and_zero

theorem and_aMask : w &&& 0xFFFF000000 = pack (opOf w) (aOf w) 0 0 :=
  and_mask (by decide) (and_ff _) BitVec.and_zero BitVec.and_zero

theorem and_abMask : w &&& 0xFFFFFF0000 = pack (opOf w) (aOf w) (bOf w) 0 :=
  and_mask (by decide) (and_ff _) (and_ff _) BitVec.and_zero

theorem and_wMask : w &&& 0xFF0000FFFF = pack (opOf w) 0 0 (wOf w) :=
  and_mask (by decide) BitVec.and_zero BitVec.and_zero (and_ffff _)

theorem and_awMask : w &&& 0xFFFF00FFFF = pack (opOf w) (aOf w) 0 (wOf w) :=
  and_mask (by decide) (and_ff _) BitVec.and_zero (and_ffff _)

theorem and_abwMask : w &&& 0xFFFFFFFFFF = pack (opOf w) (aOf w) (bOf w) (wOf w) :=
  and_mask (by decide) (and_ff _) (and_ff _) (and_ffff _)

/-- The masks of `usedBits` all keep `OP`, whatever operand fields they keep. -/
theorem opOf_and_usedBits (i : Instr) : opOf (w &&& usedBits i) = opOf w := by
  cases i <;>
    simp only [usedBits, and_opMask, and_aMask, and_abMask, and_wMask, and_awMask, and_abwMask, opOf_pack]

end usedFields

/-! ### Select codes (R72, R75) -/

/-- One operation for each row of R72, in the order of the rows, its operands zero. -/
def operations : List Instr :=
  [.nop, .srst, .sclr, .xclr, .xabs 0, .xsum 0 0, .cinit, .cabs 0, .csum, .menc 0 0, .mdec, .prst, .pfeed 0, .pfeedn,
    .eload, .eget 0, .eset 0, .estore, .edec, .eenc 0, .fencC 0 0, .fencR 0 0 0, .fdec]

theorem assignedOps_eq_map_opcode : assignedOps = operations.map opcode := rfl

theorem exists_opcode_eq {op : Byte} (h : op ∈ assignedOps) : ∃ i, opcode i = op := by
  rw [assignedOps_eq_map_opcode] at h
  obtain ⟨i, -, hi⟩ := List.mem_map.mp h
  exact ⟨i, hi⟩

theorem opcode_mem_assignedOps (i : Instr) : opcode i ∈ assignedOps := by
  cases i <;> simp [opcode, assignedOps]

theorem opcode_of_decode {w : CmdWord} {i : Instr} (h : decode w = .instr i) : opcode i = opOf w := by
  unfold decode at h
  split at h <;> cases h <;> exact BitVec.eq_of_toNat_eq (Eq.symm ‹_›)

theorem eq_opOf_of_decode_illegal {w : CmdWord} {op : Byte} (h : decode w = .illegal op) : op = opOf w := by
  unfold decode at h
  split at h <;> cases h
  rfl

/-- A word with the select code of `i` decodes, and of the word no more than the bits `i` uses goes into what it
decodes to (R74). -/
theorem decode_of_opcode {w : CmdWord} {i : Instr} (h : opOf w = opcode i) :
    ∃ j, decode w = .instr j ∧ encode j = w &&& usedBits i := by
  cases i <;>
    simp only [opcode] at h <;>
    exact ⟨_, by rw [decode, h]; rfl,
      by simp only [encode, usedBits, and_opMask, and_aMask, and_abMask, and_wMask, and_awMask, and_abwMask, h]⟩

/-- Settles O2: R72 assigns a code exactly when some operation has it, and `decode` answers an operation only with the
code in `OP`. -/
theorem onlyAssignedOpsDecode : Obligations.OnlyAssignedOpsDecode := by
  refine ⟨by decide, by decide, fun w => ⟨fun hop => ?_, fun hop => ?_⟩⟩
  · obtain ⟨i, hi⟩ := exists_opcode_eq hop
    obtain ⟨j, hj, -⟩ := decode_of_opcode hi.symm
    exact ⟨j, hj, opcode_of_decode hj⟩
  · cases hd : decode w with
    | instr i => exact absurd (opcode_of_decode hd ▸ opcode_mem_assignedOps i) hop
    | illegal op => rw [eq_opOf_of_decode_illegal hd]

/-- Two words that agree in the bits an operation uses are masked to one word, and that word is the encoding of what
either decodes to. -/
theorem decode_eq_of_usedBits {w v : CmdWord} {i : Instr} (h : decode w = .instr i)
    (hv : v &&& usedBits i = w &&& usedBits i) : decode v = .instr i := by
  have hw : opOf w = opcode i := (opcode_of_decode h).symm
  have hop : opOf v = opcode i := by rw [← opOf_and_usedBits v i, hv, opOf_and_usedBits, hw]
  obtain ⟨i', hi', hencode⟩ := decode_of_opcode hw
  obtain ⟨j, hj, hencode'⟩ := decode_of_opcode hop
  cases hi'.symm.trans h
  rw [hj, encode_injective (hencode'.trans (hv.trans hencode.symm))]

end Sys2Proof

namespace Sys2Proof.Machine

/-- Exchanging what is on the command port commutes with an operation that takes no `IBUF` (R74). -/
theorem exec_withPort {i : Instr} (h : readsIbuf i = false) (s : State) (c : Command) :
    exec i (s.withPort c) = mapNext (fun t => t.withPort c) (exec i s) := by
  cases i with
  | eget k =>
    simp only [exec, execEget, State.withPort_cfg, State.withPort_record]
    split
    · rfl
    · split
      · rfl
      · split <;> rfl
  | estore =>
    simp only [exec, execEstore, State.withPort_record]
    cases s.record <;> rfl
  | nop | srst | sclr | xclr | xabs | cinit | cabs | prst | pfeed => rfl
  | _ => cases h

/-- Settles O3: the masked words are one, and no meaning without `IBUF` reads the port. -/
theorem unusedFieldsIgnored : Obligations.UnusedFieldsIgnored :=
  ⟨fun _ _ _ => decode_eq_of_usedBits, fun _ s c h => exec_withPort h s c⟩

/-- Settles O4: the nine words, each decoded. -/
theorem writtenWordsDecode : Obligations.WrittenWordsDecode := by
  unfold Obligations.WrittenWordsDecode
  decide

theorem present_of_le {s : State} {c : Command} {cs : List Command} (hwf : s.cfg.wf = true)
    (hpending : s.pending = c :: cs) (hlen : c.ibuf.length ≤ s.cfg.ibufSize) :
    present s = .command c ((s.withPending cs).withPort c) := by
  have hfits : c.presentable s.cfg = true := decide_eq_true hlen
  rw [present, if_pos hwf, hpending]
  exact if_pos hfits

/-- Settles O6: such a command is presented, decodes to no operation, and takes the fault of R75. -/
theorem reservedOpRaisesIllegalOperation : Obligations.ReservedOpRaisesIllegalOperation := by
  intro s c cs hwf hpending hlen hop
  obtain ⟨-, -, hdecode⟩ := onlyAssignedOpsDecode
  obtain ⟨-, hillegal⟩ := hdecode c.cmdw
  rw [step_of_illegal (present_of_le hwf hpending hlen) (hillegal hop)]
  exact raise_eq .illegalOperation ((s.withPending cs).withPort c)

end Sys2Proof.Machine
end

section
/-! 40_checksum_units: the XOR unit and the CRC generator, one byte at a time and in one shot. -/

namespace Sys2Proof.Machine

/-! ### The registers the units write (R100 to R105) -/

/-- Settles O12: each select code picks its operation, and each meaning ends `ok` on its own writes. -/
theorem xorUnitOperations : Obligations.XorUnitOperations := by
  refine ⟨fun w h => ?_, fun w h => ?_, fun w h => ?_, fun s => ?_, fun s a => ?_, fun s a b => ?_⟩
  · rw [decode, h]; rfl
  · rw [decode, h]; rfl
  · rw [decode, h]; rfl
  · exact finish_eq _ (s.withXacc 0x00)
  · exact finish_eq _ (s.withXacc (s.xacc ^^^ a))
  · exact finish_eq { err := 0, r8 := some (mspChecksum a b s.ibuf) } s

/-- Settles O13: each select code picks its operation, and each meaning ends `ok` on its own writes. -/
theorem crcUnitOperations : Obligations.CrcUnitOperations := by
  refine ⟨fun w h => ?_, fun w h => ?_, fun w h => ?_, fun s => ?_, fun s a => ?_, fun s => ?_⟩
  · rw [decode, h]; rfl
  · rw [decode, h]; rfl
  · rw [decode, h]; rfl
  · exact finish_eq _ (s.withCrcr 0x0000)
  · exact finish_eq _ (s.withCrcr (crc16Step s.crcr a))
  · exact finish_eq { err := 0, r16 := some (crc16 s.ibuf) } s

/-! ### Runs of commands (20_memory R60) -/

theorem run_succ {M : Host.Core} {s u : M.State} {k : Nat} (h : M.step s = .next u) :
    M.run (k + 1) s = M.run k u := by
  rw [Host.Core.run, h]

theorem runs_nil (s : State) : Runs [] s (s.withPending []) := rfl

/-- The operations of a run are executed one after another; the commands still to come change none of them. -/
theorem runs_cons {s u t : State} {i : Instr} {cs : List Command} (hwf : s.cfg.wf = true)
    (hexec : exec i (s.withPort (i.command [])) = .next u) (hrest : Runs cs u t) :
    Runs (i.command [] :: cs) s t := by
  have hpresent : present (s.withPending (i.command [] :: cs)) =
      .command (i.command []) ((s.withPort (i.command [])).withPending cs) :=
    present_of_le hwf rfl (Nat.zero_le _)
  have hstep : step (s.withPending (i.command [] :: cs)) = .next (u.withPending cs) := by
    rw [step_of_instr hpresent (decodeOfEncode i), exec_withPending, hexec]; rfl
  exact (run_succ hstep).trans hrest

/-- `Absorbs op reg f`: executing `op b` takes what `reg` shows of the state to `f` of it and `b`, and `reg` shows
nothing of the commands still to come. -/
structure Absorbs {α : Type} (op : Byte → Instr) (reg : State → α) (f : α → Byte → α) : Prop where
  exec_next : ∀ s b, ∃ u, exec (op b) (s.withPort ((op b).command [])) = .next u ∧ reg u = f (reg s) b
  reg_withPending : ∀ s cs, reg (s.withPending cs) = reg s

/-- A run of one operation over a byte sequence folds its effect over the bytes, from index 0 upward. -/
theorem Absorbs.runs {α : Type} {op : Byte → Instr} {reg : State → α} {f : α → Byte → α} (h : Absorbs op reg f)
    {s : State} (hwf : s.cfg.wf = true) (bs : List Byte) :
    ∃ t, Runs (bs.map fun b => (op b).command []) s t ∧ reg t = bs.foldl f (reg s) := by
  induction bs generalizing s with
  | nil => exact ⟨_, runs_nil s, h.reg_withPending s []⟩
  | cons b bs ih =>
    obtain ⟨u, hexec, hreg⟩ := h.exec_next s b
    obtain ⟨t, hrun, hfold⟩ := ih (s := u) (by rw [exec_cfg hexec, State.withPort_cfg, hwf])
    exact ⟨t, runs_cons hwf hexec hrun, by rw [hfold, hreg, List.foldl_cons]⟩

theorem xabs_absorbs : Absorbs .xabs State.xacc (· ^^^ ·) :=
  ⟨fun _ _ => ⟨_, rfl, rfl⟩, fun _ _ => rfl⟩

theorem cabs_absorbs : Absorbs .cabs State.crcr crc16Step :=
  ⟨fun _ _ => ⟨_, rfl, rfl⟩, fun _ _ => rfl⟩

/-! ### The XOR sum (R106) -/

theorem mspChecksum_eq_xorfold (l c : Byte) (p : List Byte) : mspChecksum l c p = xorfold (l :: c :: p) := by
  rw [mspChecksum, xorfold_cons, xorfold_cons, BitVec.xor_assoc]

theorem xorfold_perm {s t : List Byte} (h : s.Perm t) : xorfold s = xorfold t :=
  h.foldl_eq 0

/-- Settles O14: both runs are folds of `xor`; the first starts from the zero XCLR leaves, and the second does not
depend on the order of the bytes. -/
theorem stepwiseXorEqualsOneShot : Obligations.StepwiseXorEqualsOneShot := by
  refine ⟨fun s l c p w hwf => ?oneShot, fun s bs cs hwf hperm => ?anyOrder⟩
  case oneShot =>
    obtain ⟨t, hrun, hxacc⟩ := xabs_absorbs.runs
      (s := afterOk Result.ok ((s.withPort (Instr.xclr.command [])).withXacc 0x00)) hwf (l :: c :: p)
    have hsum : t.xacc = mspChecksum l c p := hxacc.trans (mspChecksum_eq_xorfold l c p).symm
    exact ⟨t, _, runs_cons hwf rfl hrun, hsum, rfl, by rw [hsum]; rfl⟩
  case anyOrder =>
    obtain ⟨t, hrun, hxacc⟩ := xabs_absorbs.runs hwf cs
    exact ⟨t, hrun, by rw [hxacc, foldl_xor, xorfold_perm hperm]⟩

/-! ### The CRC (R107) -/

theorem crc16_append (s t : List Byte) : crc16 (s ++ t) = crc16From (crc16 s) t := List.foldl_append

/-- Settles O15: the run is the fold that `crc16` is, from the zero CINIT leaves. -/
theorem stepwiseCrcEqualsOneShot : Obligations.StepwiseCrcEqualsOneShot := by
  refine ⟨fun s p w hwf => ?_, crc16_append⟩
  obtain ⟨t, hrun, hcrcr⟩ := cabs_absorbs.runs
    (s := afterOk Result.ok ((s.withPort (Instr.cinit.command [])).withCrcr 0x0000)) hwf p
  have hcrc : t.crcr = crc16 p := hcrcr
  exact ⟨t, _, runs_cons hwf rfl hrun, hcrc, rfl, by rw [hcrc]; rfl⟩

/-! ### The residue (R108) -/

/-- While the bit shifted out is 0, the polynomial is not applied. -/
theorem crcShift_of_lt {t : Half} (h : t.toNat < 2 ^ 15) : crcShift t = t <<< 1 := by
  have hbit : ¬ t.getLsbD 15 = true := by rw [BitVec.getLsbD, Nat.testBit_lt_two_pow h]; decide
  exact if_neg hbit

theorem crcShifts_of_lt {n : Nat} {t : Half} (h : t.toNat * 2 ^ n < 2 ^ 16) : crcShifts n t = t <<< n := by
  induction n generalizing t with
  | zero => exact (BitVec.shiftLeft_zero t).symm
  | succ n ih =>
    have hdouble : t.toNat * 2 * 2 ^ n < 2 ^ 16 := by rwa [Nat.mul_assoc, ← Nat.pow_succ']
    have hsmall : t.toNat * 2 < 2 ^ 16 := (Nat.le_mul_of_pos_right _ (Nat.two_pow_pos n)).trans_lt hdouble
    have hshift : (t <<< 1).toNat = t.toNat * 2 := by
      rw [BitVec.toNat_shiftLeft, Nat.shiftLeft_eq, Nat.pow_one, Nat.mod_eq_of_lt hsmall]
    rw [crcShifts, crcShift_of_lt (by omega), ih (by rwa [hshift]), ← BitVec.shiftLeft_add, Nat.add_comm]

theorem xor_hi8 (c : Half) : c ^^^ (hi8 c).setWidth 16 <<< 8 = (lo8 c).setWidth 16 := by
  ext i hi
  rcases Nat.lt_or_ge i 8 with h | h
  · simp [lo8, h, BitVec.getLsbD_eq_getElem hi]
  · have hhigh : i - 8 < 8 := by omega
    simp [hi8, lo8, Nat.not_lt.mpr h, hhigh, Nat.add_sub_cancel' h, BitVec.getLsbD_eq_getElem hi]

/-- Absorbing the register's own high byte cancels it, and moves the low byte up. -/
theorem crc16Step_hi8 (c : Half) : crc16Step c (hi8 c) = (lo8 c).setWidth 16 <<< 8 := by
  have hlow := (lo8 c).isLt
  rw [crc16Step, xor_hi8, crcShifts_of_lt]
  rw [BitVec.toNat_setWidth, Nat.mod_eq_of_lt (by omega)]
  omega

theorem crc16Step_cancel (b : Byte) : crc16Step (b.setWidth 16 <<< 8) b = 0 := by
  rw [crc16Step, BitVec.xor_self]
  decide

/-- Settles O16: the first appended byte cancels the high half of the register, the second what was the low half. -/
theorem crcResidueIsZero : Obligations.CrcResidueIsZero := by
  intro s
  calc crc16 (s ++ [hi8 (crc16 s), lo8 (crc16 s)])
      = crc16Step (crc16Step (crc16 s) (hi8 (crc16 s))) (lo8 (crc16 s)) := crc16_append s _
    _ = crc16Step ((lo8 (crc16 s)).setWidth 16 <<< 8) (lo8 (crc16 s)) := by rw [crc16Step_hi8]
    _ = 0x0000 := crc16Step_cancel _

end Sys2Proof.Machine
end

section
/-! 41_msp_frame_codec: MENC builds a frame, and MDEC takes apart the first one the stream parser finds. -/

namespace Sys2Proof.Machine

/-! ### `MENC` (R121) -/

theorem isMarker_iff {b : Byte} : isMarker b = true ↔ b = 0x3C ∨ b = 0x3E ∨ b = 0x21 := by
  simp only [isMarker, Bool.or_eq_true, decide_eq_true_eq, or_assoc]

section menc
variable {s : State} {d : Byte} (c : Byte)

theorem exec_menc_payloadTooLong (hlen : 255 < s.ilen) :
    exec (.menc d c) s = .next (afterFault .payloadTooLong s) :=
  if_pos hlen

theorem exec_menc_badDirection (hlen : s.ilen ≤ 255) (hd : ¬ isMarker d = true) :
    exec (.menc d c) s = .next (afterFault .badDirection s) :=
  (if_neg (Nat.not_lt.mpr hlen)).trans (if_neg hd)

theorem exec_menc_frame (hlen : s.ilen ≤ 255) (hd : isMarker d = true) :
    exec (.menc d c) s = .next (afterOk { err := 0, obuf := mspFrame d c s.ibuf } s) :=
  (if_neg (Nat.not_lt.mpr hlen)).trans (if_pos hd)

end menc

/-- Settles O18: the select code picks MENC, and its two tests, the length's first, pick the outcome. -/
theorem mencBuildsFrameOrFaults : Obligations.MencBuildsFrameOrFaults := by
  refine ⟨fun w h => by rw [decode, h]; rfl,
    fun s a b hlen ha => exec_menc_frame b hlen (isMarker_iff.mpr ha),
    fun s a b hlen => exec_menc_payloadTooLong b hlen, fun s a b hlen h1 h2 h3 => ?_⟩
  exact exec_menc_badDirection b hlen fun ha => (isMarker_iff.mp ha).elim h1 fun h => h.elim h2 h3

/-! ### The checksum byte (00_scope R14) -/

/-- A byte is the checksum of the payload before it exactly when the length, the command id, the payload and the byte
xor to zero. -/
theorem eq_mspChecksum_iff {l c k : Byte} {p : List Byte} :
    k = mspChecksum l c p ↔ xorfold (l :: c :: (p ++ [k])) = 0 := by
  rw [mspChecksum_eq_xorfold, ← List.cons_append, ← List.cons_append, xorfold_append, xorfold_cons k, xorfold_nil,
    BitVec.xor_comm k, zero_xor_byte]
  exact eq_comm.trans BitVec.xor_eq_zero_iff.symm

/-- Settles O19: the output is `mspFrame`, and its checksum byte is the one that makes the xor vanish. -/
theorem mencOutputGuarantees : Obligations.MencOutputGuarantees := by
  intro s a b hlen ha
  have holen : Result.olen { err := 0, obuf := mspFrame a b s.ibuf } = s.port.ibuf.length + 6 := mspFrame_length a b _
  refine ⟨_, _, exec_menc_frame b hlen (isMarker_iff.mpr ha), rfl, ?_, by omega, by omega, ?_, rfl⟩
  · rw [holen]; rfl
  · exact eq_mspChecksum_iff.mp rfl

/-! ### `MDEC` reads the events `PFEEDN` would report (R126, 42_msp_stream_parser R150) -/

/-- What `MDEC` makes of the events on its input: `STATUS` with the flags of the discards before the first frame, and
that frame with the number of bytes up to its end. -/
def firstFrame (status : Byte) : List (Nat × Event) → Byte × Option (Frame × Nat)
  | [] => (status, none)
  | (i, .frame f) :: _ => (status, some (f, i + 1))
  | (_, ev) :: evs => firstFrame (eventFlags status ev) evs

theorem firstFrame_discard {ev : Event} (h : isFrameEvent ev = false) (st : Byte) (i : Nat)
    (evs : List (Nat × Event)) : firstFrame st ((i, ev) :: evs) = firstFrame (eventFlags st ev) evs := by
  cases ev with
  | frame f => cases h
  | _ => rfl

/-- `MDEC`'s scan is `firstFrame` of the events: a byte without an event changes neither. -/
theorem mdecScan_eq_firstFrame (p : Parser) (st : Byte) (i : Nat) (bs : List Byte) :
    mdecScan p st i bs = firstFrame st (feedEvents p i bs) := by
  induction bs generalizing p st i with
  | nil => rfl
  | cons b bs ih =>
    rw [mdecScan_cons, feedEvents_cons]
    cases (pstep p b).2 with
    | frame f => rfl
    | _ => exact ih _ _ _

theorem firstFrame_of_find?_none {evs : List (Nat × Event)} (st : Byte)
    (h : evs.find? (fun e => isFrameEvent e.2) = none) : firstFrame st evs = (eventsFlags st evs, none) := by
  induction evs generalizing st with
  | nil => rfl
  | cons e evs ih =>
    obtain ⟨i, ev⟩ := e
    cases hev : isFrameEvent ev
    · simp only [List.find?_cons, hev] at h
      exact (firstFrame_discard hev st i evs).trans (ih _ h)
    · simp [hev] at h

theorem firstFrame_of_find?_some {evs : List (Nat × Event)} {i : Nat} {f : Frame} (st : Byte)
    (h : evs.find? (fun e => isFrameEvent e.2) = some (i, .frame f)) :
    firstFrame st evs = (eventsFlags st (evs.takeWhile fun e => !isFrameEvent e.2), some (f, i + 1)) := by
  induction evs generalizing st with
  | nil => cases h
  | cons e evs ih =>
    obtain ⟨j, ev⟩ := e
    cases hev : isFrameEvent ev
    · simp only [List.find?_cons, hev] at h
      rw [firstFrame_discard hev, ih _ h, List.takeWhile_cons_of_pos (by simp [hev])]
      rfl
    · simp only [List.find?_cons, hev] at h
      cases h
      rfl

/-- The next state of `MDEC`, from the events that its input causes from idle and what `firstFrame` makes of them. -/
theorem exec_mdec {s : State} {st : Byte} {r : Option (Frame × Nat)}
    (h : firstFrame s.status (feedEvents Parser.idle 0 s.ibuf) = (st, r)) :
    exec .mdec s = .next (afterOk (mdecResult s.ilen r) (s.withStatus st)) := by
  have hscan := (mdecScan_eq_firstFrame Parser.idle s.status 0 s.ibuf).trans h
  simp only [exec, execMdec, hscan, finish_eq]

/-- Settles O20: the events of PFEEDN from idle are the ones `firstFrame` reads. -/
theorem mdecReturnsFirstFrame : Obligations.MdecReturnsFirstFrame := by
  refine ⟨fun w h => by rw [decode, h]; rfl, fun s => ?_⟩
  exact ⟨_, feedEvents Parser.idle 0 s.ibuf, rfl, rfl,
    fun i f h => exec_mdec (firstFrame_of_find?_some s.status h),
    fun h => exec_mdec (firstFrame_of_find?_none s.status h)⟩

/-! ### What the parser reports of one whole frame (42_msp_stream_parser R143) -/

/-- The parser after the header of a frame and the bytes `q` of its payload. -/
def inFrame (d l c : Byte) (q : List Byte) : Parser :=
  ⟨if q.length < l.toNat then .payload else .checksum, d, l, c, mspChecksum l c q, q⟩

theorem feedEvents_header {d : Byte} (hd : isMarker d = true) (l c : Byte) (i : Nat) (bs : List Byte) :
    feedEvents Parser.idle i ([0x24, 0x4D, d, l, c] ++ bs) = feedEvents (inFrame d l c []) (i + 5) bs := by
  have hstate : (if l = 0 then Pst.checksum else .payload) = if 0 < l.toNat then .payload else .checksum := by
    by_cases h : l = 0
    · subst h; rfl
    · rw [if_neg h, if_pos (Nat.pos_of_ne_zero fun h0 => h (BitVec.eq_of_toNat_eq h0))]
  simp [feedEvents_cons, pstep, Parser.idle, inFrame, mspChecksum, hd, ← hstate]

theorem pstep_inFrame_payload {d l c : Byte} {q : List Byte} (h : q.length < l.toNat) (b : Byte) :
    pstep (inFrame d l c q) b = (inFrame d l c (q ++ [b]), .none) := by
  simp [pstep, inFrame, h, mspChecksum_append]

theorem pstep_inFrame_checksum {d l c : Byte} {q : List Byte} (h : q.length = l.toNat) (b : Byte) :
    pstep (inFrame d l c q) b = (Parser.idle,
      if b = mspChecksum l c q then .frame ⟨d, c, l, q⟩ else .ckErr c (mspChecksum l c q) b) := by
  simp only [pstep, inFrame, h, Nat.lt_irrefl, if_false]
  split <;> rfl

theorem feedEvents_inFrame {d l c : Byte} {q r : List Byte} (h : q.length + r.length ≤ l.toNat) (i : Nat)
    (bs : List Byte) :
    feedEvents (inFrame d l c q) i (r ++ bs) = feedEvents (inFrame d l c (q ++ r)) (i + r.length) bs := by
  induction r generalizing q i with
  | nil => simp
  | cons b r ih =>
    rw [List.length_cons] at h
    rw [List.cons_append, feedEvents_cons, pstep_inFrame_payload (by omega), if_pos rfl,
      ih (by rw [List.length_append, List.length_singleton]; omega)]
    simp [Nat.add_assoc, Nat.add_comm 1]

/-- A header, as many bytes as it announces and one more cause one event, on the last byte: the frame when that byte is
the checksum, else its discard. -/
theorem feedEvents_frame {d l : Byte} {q : List Byte} (hd : isMarker d = true) (hl : q.length = l.toNat) (c k : Byte)
    (i : Nat) :
    feedEvents Parser.idle i ([0x24, 0x4D, d, l, c] ++ (q ++ [k])) =
      [(i + 5 + q.length,
        if k = mspChecksum l c q then .frame ⟨d, c, l, q⟩ else .ckErr c (mspChecksum l c q) k)] := by
  rw [feedEvents_header hd, feedEvents_inFrame (by simp [hl]), List.nil_append, feedEvents_cons,
    pstep_inFrame_checksum hl]
  split <;> rfl

theorem ofNat_length_toNat {p : List Byte} (h : p.length ≤ 255) : (BitVec.ofNat 8 p.length).toNat = p.length := by
  rw [BitVec.toNat_ofNat]; omega

theorem mspFrame_eq (d c : Byte) (p : List Byte) : mspFrame d c p =
    [0x24, 0x4D, d, BitVec.ofNat 8 p.length, c] ++ (p ++ [mspChecksum (BitVec.ofNat 8 p.length) c p]) := rfl

theorem feedEvents_mspFrame {d : Byte} {p : List Byte} (hd : isMarker d = true) (hlen : p.length ≤ 255) (c : Byte)
    (i : Nat) : feedEvents Parser.idle i (mspFrame d c p) =
      [(i + 5 + p.length, .frame ⟨d, c, BitVec.ofNat 8 p.length, p⟩)] := by
  rw [mspFrame_eq, feedEvents_frame hd (ofNat_length_toNat hlen).symm, if_pos rfl]

/-- Settles O21: the frame MENC builds causes one event, on its last byte, and MDEC returns it. -/
theorem mspRoundTrip : Obligations.MspRoundTrip := by
  intro s d c w v p hd hlen
  have hmarker := isMarker_iff.mpr hd
  have hfirst : firstFrame s.status (feedEvents Parser.idle 0 (mspFrame d c p)) =
      (s.status, some (⟨d, c, BitVec.ofNat 8 p.length, p⟩, p.length + 6)) := by
    rw [feedEvents_mspFrame hmarker hlen, firstFrame, Nat.zero_add, Nat.add_right_comm, Nat.add_comm _ p.length]
  exact ⟨_, _, _, exec_menc_frame c hlen hmarker, rfl, exec_mdec hfirst, rfl⟩

/-! ### One byte changed (R129) -/

theorem xorfold_set_ne {s : List Byte} {j : Nat} {old b : Byte} (h : s[j]? = some old) (hne : b ≠ old) :
    xorfold (s.set j b) ≠ xorfold s := by
  induction s generalizing j with
  | nil => cases h
  | cons x xs ih =>
    cases j with
    | zero =>
      cases h
      rw [List.set_cons_zero, xorfold_cons, xorfold_cons]
      exact fun heq => hne ((BitVec.xor_left_inj _).mp heq)
    | succ j =>
      rw [List.set_cons_succ, xorfold_cons, xorfold_cons]
      exact fun heq => ih h ((BitVec.xor_right_inj _).mp heq)

/-- Payload and checksum with one byte changed are as many bytes as before, the last no longer the checksum of the
others: the xor from the length byte on was zero, and the change moves it. -/
theorem set_payload_checksum {l c b old : Byte} {p : List Byte} {j : Nat}
    (h : (p ++ [mspChecksum l c p])[j]? = some old) (hne : b ≠ old) :
    ∃ q k, (p ++ [mspChecksum l c p]).set j b = q ++ [k] ∧ q.length = p.length ∧ k ≠ mspChecksum l c q := by
  have hsize : ((p ++ [mspChecksum l c p]).set j b).length = p.length + 1 := by simp
  obtain ⟨q, k, hqk⟩ := List.eq_nil_or_concat _ |>.resolve_left (List.ne_nil_of_length_eq_add_one hsize)
  rw [List.concat_eq_append] at hqk
  refine ⟨q, k, hqk, by simpa [hqk] using hsize, fun hk => xorfold_set_ne h hne ?_⟩
  have hwhole := eq_mspChecksum_iff.mp (rfl : mspChecksum l c p = _)
  have hchanged := eq_mspChecksum_iff.mp hk
  rw [hqk]
  rw [← hwhole] at hchanged
  simpa only [xorfold_cons, BitVec.xor_right_inj] using hchanged

theorem feedEvents_mspFrame_set {d c b old : Byte} {p : List Byte} {i : Nat} (hd : isMarker d = true)
    (hlen : p.length ≤ 255) (hi : 5 ≤ i) (hold : (mspFrame d c p)[i]? = some old) (hne : b ≠ old) :
    ∃ exp got, feedEvents Parser.idle 0 ((mspFrame d c p).set i b) = [(p.length + 5, .ckErr c exp got)] := by
  rw [mspFrame_eq, List.getElem?_append_right hi] at hold
  obtain ⟨q, k, hqk, hqlen, hk⟩ := set_payload_checksum hold hne
  refine ⟨mspChecksum (BitVec.ofNat 8 p.length) c q, k, ?_⟩
  rw [mspFrame_eq, List.set_append_right _ _ hi, hqk,
    feedEvents_frame hd (hqlen.trans (ofNat_length_toNat hlen).symm), if_neg hk, hqlen, Nat.zero_add, Nat.add_comm]

/-- Settles O22: the one event is the discard on the last byte, which raises MCKERR. -/
theorem mspSingleByteCorruptionRejected : Obligations.MspSingleByteCorruptionRejected := by
  intro s d c b old w v p i hd hlen
  have hmarker := isMarker_iff.mpr hd
  refine ⟨_, _, exec_menc_frame c hlen hmarker, rfl, fun hi hold hne => ?_⟩
  obtain ⟨exp, got, hevents⟩ := feedEvents_mspFrame_set hmarker hlen hi hold hne
  have hfirst : firstFrame s.status (feedEvents Parser.idle 0 ((mspFrame d c p).set i b)) =
      (raiseFlag .mckErr s.status, none) := by rw [hevents]; rfl
  refine ⟨_, exec_mdec hfirst, ?_, ?_⟩
  · simp [mdecResult, mspFrame_length]
  · exact (raiseFlag_getLsbD .mckErr s.status 1).trans (Bool.or_true _)

end Sys2Proof.Machine
end

section
/-! 42_msp_stream_parser: PRST, PFEED and PFEEDN, how the stream is cut into buffers, and which frames are reported. -/

namespace Sys2Proof.Machine

/-! ### `PRST` and the rows of the table, as `PFEED` shows them (R143 to R145) -/

/-- Settles O23: the select code picks PRST, whose one write is the parser at its reset values. -/
theorem prstReturnsParserToIdle : Obligations.PrstReturnsParserToIdle :=
  ⟨fun w h => by rw [decode, h]; rfl, fun s => finish_eq Result.ok (s.withParser Parser.idle)⟩

section rows
variable {p : Parser} (b : Byte)

theorem pstep_seekDollar (h : p.pst = .seekDollar) :
    pstep p b = if b = 0x24 then ({ p with pst := .seekM }, .none) else (p, .none) := by rw [pstep, h]

theorem pstep_seekM (h : p.pst = .seekM) :
    pstep p b = if b = 0x4D then ({ p with pst := .direction }, .none) else (Parser.idle, .none) := by rw [pstep, h]

theorem pstep_direction (h : p.pst = .direction) :
    pstep p b =
      if isMarker b then ({ p with pdir := b, pst := .length }, .none) else (Parser.idle, .badDir b) := by
  rw [pstep, h]

theorem pstep_length (h : p.pst = .length) :
    pstep p b = ({ p with plen := b, pck := b, pst := .command }, .none) := by rw [pstep, h]

theorem pstep_command (h : p.pst = .command) :
    pstep p b =
      ({ p with pcmd := b, pck := p.pck ^^^ b, pst := if 0 < p.plen.toNat then .payload else .checksum }, .none) := by
  have hzero : p.plen = 0 ↔ ¬ 0 < p.plen.toNat := by rw [Nat.pos_iff_ne_zero, not_not]; exact BitVec.toNat_eq
  rw [pstep, h]
  simp only [hzero, ite_not]

theorem pstep_payload (h : p.pst = .payload) :
    pstep p b =
      ({ p with
          pay := p.pay ++ [b], pck := p.pck ^^^ b,
          pst := if p.pay.length + 1 < p.plen.toNat then .payload else .checksum }, .none) := by rw [pstep, h]

theorem pstep_checksum (h : p.pst = .checksum) :
    pstep p b =
      if b = p.pck then (Parser.idle, .frame ⟨p.pdir, p.pcmd, p.plen, p.pay⟩)
      else (Parser.idle, .ckErr p.pcmd p.pck b) := by rw [pstep, h]

end rows

/-- The next state of `PFEED`, from the row of the table that its byte meets. -/
theorem exec_pfeed {s : State} {a : Byte} {p : Parser} {ev : Event} (h : pstep s.parser a = (p, ev)) :
    exec (.pfeed a) s =
      .next (afterOk (feedResult ev) ((s.withParser p).withStatus (eventFlags s.status ev))) := by
  rw [exec, execPfeed, h, finish_eq]

/-- Settles O24: one row of the table for each parser state, split by the byte where the table splits. -/
theorem pfeedHeaderRows : Obligations.PfeedHeaderRows := by
  refine ⟨fun w h => by rw [decode, h]; rfl, fun s a => ⟨fun hs => ?dollar, fun hs => ?m, fun hs ha => ?marker,
    fun hs h1 h2 h3 => ?badDir, fun hs => exec_pfeed (pstep_length a hs),
    fun hs => exec_pfeed (pstep_command a hs)⟩⟩
  case dollar =>
    have hrow := pstep_seekDollar a hs
    split
    case isTrue ha => exact exec_pfeed (hrow.trans (if_pos ha))
    case isFalse ha => exact exec_pfeed (hrow.trans (if_neg ha))
  case m =>
    have hrow := pstep_seekM a hs
    split
    case isTrue ha => exact exec_pfeed (hrow.trans (if_pos ha))
    case isFalse ha => exact exec_pfeed (hrow.trans (if_neg ha))
  case marker => exact exec_pfeed ((pstep_direction a hs).trans (if_pos (isMarker_iff.mpr ha)))
  case badDir =>
    have ha : ¬ isMarker a = true := fun h => (isMarker_iff.mp h).elim h1 fun h => h.elim h2 h3
    exact exec_pfeed ((pstep_direction a hs).trans (if_neg ha))

/-- Settles O25: the payload's row, and the two of the checksum byte. -/
theorem pfeedPayloadAndChecksumRows : Obligations.PfeedPayloadAndChecksumRows := fun _ a =>
  ⟨fun hs => exec_pfeed (pstep_payload a hs),
    fun hs ha => exec_pfeed ((pstep_checksum a hs).trans (if_pos ha)),
    fun hs ha => exec_pfeed ((pstep_checksum a hs).trans (if_neg ha))⟩

/-! ### One buffer after another (R146) -/

theorem feedParser_append (p : Parser) (a b : List Byte) :
    feedParser p (a ++ b) = feedParser (feedParser p a) b := List.foldl_append

theorem feedEvents_append (p : Parser) (i : Nat) (a b : List Byte) :
    feedEvents p i (a ++ b) = feedEvents p i a ++ feedEvents (feedParser p a) (i + a.length) b := by
  induction a generalizing p i with
  | nil => rfl
  | cons x a ih =>
    have hrest := ih (pstep p x).1 (i + 1)
    rw [Nat.add_assoc, Nat.add_comm 1] at hrest
    rw [List.cons_append, feedEvents_cons, feedEvents_cons, hrest]
    split <;> rfl

/-- Only the indices depend on the index of the first byte. -/
theorem feedEvents_add (p : Parser) (i n : Nat) (bs : List Byte) :
    feedEvents p (i + n) bs = (feedEvents p i bs).map fun e => (e.1 + n, e.2) := by
  induction bs generalizing p i with
  | nil => rfl
  | cons b bs ih =>
    rw [feedEvents_cons, feedEvents_cons, Nat.add_right_comm, ih]
    split <;> rfl

/-- The events of the second of two buffers, each counted from its own first byte, follow those of the first. -/
theorem feedEvents_split (p : Parser) (a b : List Byte) :
    feedEvents p 0 (a ++ b) =
      feedEvents p 0 a ++ (feedEvents (feedParser p a) 0 b).map fun e => (e.1 + a.length, e.2) := by
  rw [feedEvents_append, feedEvents_add]

theorem feedEvents_concat (p : Parser) (i : Nat) (bs : List Byte) (b : Byte) :
    feedEvents p i (bs ++ [b]) =
      if (pstep (feedParser p bs) b).2 = .none then feedEvents p i bs
      else feedEvents p i bs ++ [(i + bs.length, (pstep (feedParser p bs) b).2)] := by
  rw [feedEvents_append, feedEvents_cons]
  split
  · exact List.append_nil _
  · rfl

theorem eventsFlags_append (st : Byte) (es et : List (Nat × Event)) :
    eventsFlags st (es ++ et) = eventsFlags (eventsFlags st es) et := List.foldl_append

/-- The flags do not depend on the indices of the events. -/
theorem eventsFlags_map_add (st : Byte) (n : Nat) (es : List (Nat × Event)) :
    eventsFlags st (es.map fun e => (e.1 + n, e.2)) = eventsFlags st es := List.foldl_map

/-- The state `PFEEDN` leaves. -/
def pfeednEnd (s : State) : State :=
  afterOk { err := 0, events := some (feedEvents s.parser 0 s.ibuf) }
    ((s.withParser (feedParser s.parser s.ibuf)).withStatus (eventsFlags s.status (feedEvents s.parser 0 s.ibuf)))

theorem exec_pfeedn (s : State) : exec .pfeedn s = .next (pfeednEnd s) := rfl

@[simp] theorem pfeednEnd_parser (s : State) : (pfeednEnd s).parser = feedParser s.parser s.port.ibuf := rfl

@[simp] theorem pfeednEnd_status (s : State) :
    (pfeednEnd s).status = eventsFlags s.status (feedEvents s.parser 0 s.port.ibuf) := rfl

theorem pfeednEnd_result (s : State) :
    (pfeednEnd s).result = some { err := 0, events := some (feedEvents s.parser 0 s.port.ibuf) } := rfl

/-- Bytes that cause no event and bring the parser back to where it was change nothing but `LASTERR`. -/
theorem exec_pfeedn_of_silent {s : State} (hparser : feedParser s.parser s.ibuf = s.parser)
    (hevents : feedEvents s.parser 0 s.ibuf = []) :
    exec .pfeedn s = .next (afterOk { err := 0, events := some [] } s) := by
  rw [exec_pfeedn, pfeednEnd, hparser, hevents]
  rfl

theorem feedResult_ev (ev : Event) : (feedResult ev).ev = some (eventCode ev) := by
  cases ev <;> rfl

theorem feedResult_ev_eq_zero_iff {ev : Event} : (feedResult ev).ev = some 0 ↔ ev = .none := by
  cases ev <;> simp [feedResult, eventCode]

/-- Settles O26: both folds take the last byte last, and `PFEED` of it is that last step. -/
theorem pfeednIsFoldOfPfeed : Obligations.PfeednIsFoldOfPfeed := by
  refine ⟨fun w h => by rw [decode, h]; rfl, fun s w => exec_pfeedn_of_silent rfl rfl, fun s w bs b => ?_⟩
  refine ⟨_, _, _, _, exec_pfeedn _, pfeednEnd_result _, exec_pfeed rfl, rfl, feedResult_ev _, ?_⟩
  have hevents := feedEvents_concat s.parser 0 bs b
  rw [Nat.zero_add] at hevents
  have hparser : feedParser s.parser (bs ++ [b]) = (pstep (feedParser s.parser bs) b).1 := feedParser_append ..
  have hstatus : eventsFlags s.status (feedEvents s.parser 0 (bs ++ [b])) =
      eventFlags (eventsFlags s.status (feedEvents s.parser 0 bs)) (pstep (feedParser s.parser bs) b).2 := by
    rw [hevents]
    split
    case isTrue hnone => rw [hnone]; rfl
    case isFalse => exact eventsFlags_append ..
  have hend : pfeednEnd (s.withPort ⟨w, bs ++ [b]⟩) =
      afterOk { err := 0, events := some (feedEvents s.parser 0 (bs ++ [b])) }
        { s with
          parser := feedParser s.parser (bs ++ [b])
          status := eventsFlags s.status (feedEvents s.parser 0 (bs ++ [b])), port := ⟨w, bs ++ [b]⟩ } := rfl
  rw [exec_pfeedn, hend, hparser, hstatus, hevents]
  simp only [feedResult_ev_eq_zero_iff]
  rfl

/-! ### The bounds (R146) -/

theorem feedEvents_length_le (p : Parser) (i : Nat) (bs : List Byte) : (feedEvents p i bs).length ≤ bs.length := by
  induction bs generalizing p i with
  | nil => exact Nat.le_refl 0
  | cons b bs ih =>
    have hrest := ih (pstep p b).1 (i + 1)
    rw [feedEvents_cons]
    split
    · exact Nat.le_succ_of_le hrest
    · exact Nat.succ_le_succ hrest

/-- A listed event is what the byte at its index caused, in the parser that the bytes before it left. -/
theorem exists_of_mem_feedEvents {p : Parser} {i j : Nat} {bs : List Byte} {ev : Event}
    (h : (j, ev) ∈ feedEvents p i bs) :
    ev ≠ .none ∧ ∃ pre b post, bs = pre ++ b :: post ∧ j = i + pre.length ∧ (pstep (feedParser p pre) b).2 = ev := by
  induction bs generalizing p i with
  | nil => cases h
  | cons b bs ih =>
    have later (hmem : (j, ev) ∈ feedEvents (pstep p b).1 (i + 1) bs) : ev ≠ .none ∧ ∃ pre b' post,
        b :: bs = pre ++ b' :: post ∧ j = i + pre.length ∧ (pstep (feedParser p pre) b').2 = ev := by
      obtain ⟨hev, pre, b', post, rfl, rfl, hb'⟩ := ih hmem
      exact ⟨hev, b :: pre, b', post, rfl, by rw [List.length_cons]; omega, hb'⟩
    rw [feedEvents_cons] at h
    split at h
    case isTrue => exact later h
    case isFalse hev =>
      rcases List.mem_cons.mp h with heq | hmem
      · cases heq
        exact ⟨hev, [], b, bs, rfl, rfl, rfl⟩
      · exact later hmem

/-- How many bytes of a frame's preamble and header the parser has taken; the checksum is the sixth byte. -/
def headerTaken : Pst → Nat
  | .seekDollar => 0
  | .seekM => 1
  | .direction => 2
  | .length => 3
  | .command => 4
  | .payload => 5
  | .checksum => 5

theorem headerTaken_le (st : Pst) : headerTaken st ≤ 5 := by cases st <;> decide

/-- A byte takes the parser at most one byte further, and a frame spends the six bytes it takes at least. -/
theorem headerTaken_pstep (p : Parser) (b : Byte) :
    headerTaken (pstep p b).1.pst + 6 * (if isFrameEvent (pstep p b).2 then 1 else 0) ≤ headerTaken p.pst + 1 := by
  rcases pstep_cases p b with ⟨hs, -, he⟩ | ⟨hs, -, he⟩ | ⟨hs, -, he⟩ | ⟨hs, -, he⟩ | ⟨hs, -, he⟩ | ⟨hs, -, he⟩ |
    ⟨hs, he⟩ | ⟨hs, -, he⟩ | ⟨hs, -, he⟩ | ⟨hs, -, he⟩ | ⟨hs, -, he⟩ | ⟨hs, -, he⟩ | ⟨hs, -, he⟩ <;>
    simp [he, hs, headerTaken, isFrameEvent, Parser.idle]

theorem frames_cons_length (i : Nat) (ev : Event) (evs : List (Nat × Event)) :
    (((i, ev) :: evs).filter fun e => isFrameEvent e.2).length =
      (evs.filter fun e => isFrameEvent e.2).length + if isFrameEvent ev then 1 else 0 := by
  rw [List.filter_cons]
  split <;> rfl

theorem feedEvents_frames_le (p : Parser) (i : Nat) (bs : List Byte) :
    6 * ((feedEvents p i bs).filter fun e => isFrameEvent e.2).length ≤ headerTaken p.pst + bs.length := by
  induction bs generalizing p i with
  | nil => exact Nat.zero_le _
  | cons b bs ih =>
    have hstep := headerTaken_pstep p b
    have hrest := ih (pstep p b).1 (i + 1)
    rw [feedEvents_cons, List.length_cons]
    split
    case isTrue => omega
    case isFalse =>
      rw [frames_cons_length]
      omega

/-- Settles O27: each byte lists one event at most, at its own index, and the bytes taken bound the frames. -/
theorem pfeednCompletesWithinBounds : Obligations.PfeednCompletesWithinBounds := by
  intro s
  have hframes := feedEvents_frames_le s.parser 0 s.port.ibuf
  refine ⟨feedParser s.parser s.port.ibuf, eventsFlags s.status (feedEvents s.parser 0 s.port.ibuf),
    feedEvents s.parser 0 s.port.ibuf, exec_pfeedn s, feedEvents_length_le .., fun ⟨j, ev⟩ he => ?index, ?any,
    fun hidle => ?idle⟩
  case index =>
    obtain ⟨hev, pre, b, post, hbs, rfl, -⟩ := exists_of_mem_feedEvents he
    exact ⟨by simp [hbs], hev⟩
  case any =>
    have := headerTaken_le s.parser.pst
    omega
  case idle =>
    have hzero : headerTaken s.parser.pst = 0 := by rw [hidle]; rfl
    omega

/-! ### Where a stream is cut (R148) -/

/-- Every event ends the frame it belongs to (R143). -/
theorem pstep_idle_of_event {p : Parser} {b : Byte} (h : (pstep p b).2 ≠ .none) : (pstep p b).1 = Parser.idle := by
  rcases pstep_cases p b with ⟨-, -, he⟩ | ⟨-, -, he⟩ | ⟨-, -, he⟩ | ⟨-, -, he⟩ | ⟨-, -, he⟩ | ⟨-, -, he⟩ |
    ⟨-, he⟩ | ⟨-, -, he⟩ | ⟨-, -, he⟩ | ⟨-, -, he⟩ | ⟨-, -, he⟩ | ⟨-, -, he⟩ | ⟨-, -, he⟩ <;>
    rw [he] at h ⊢ <;> exact absurd rfl h

theorem feedParser_idle_of_last_event {p : Parser} {j : Nat} {bs : List Byte} {ev : Event}
    (h : (j, ev) ∈ feedEvents p 0 bs) (hlast : bs.length ≤ j + 1) : feedParser p bs = Parser.idle := by
  obtain ⟨hev, pre, b, post, rfl, rfl, hb⟩ := exists_of_mem_feedEvents h
  have hpost : post = [] := List.eq_nil_of_length_eq_zero (by
    rw [List.length_append, List.length_cons] at hlast; omega)
  rw [hpost, feedParser_append]
  exact pstep_idle_of_event (hb ▸ hev)

/-- Cut at `k`, a buffer's events are those of its two parts, the second's counted from the cut. -/
theorem feedEvents_cut (p : Parser) {f : List Byte} {k : Nat} (hk : k ≤ f.length) :
    feedEvents p 0 (f.take k) ++
      (feedEvents (feedParser p (f.take k)) 0 (f.drop k)).map (fun e => (e.1 + k, e.2)) = feedEvents p 0 f := by
  have hsplit := feedEvents_split p (f.take k) (f.drop k)
  rw [List.take_append_drop, List.length_take_of_le hk] at hsplit
  exact hsplit.symm

theorem feedParser_cut (p : Parser) (f : List Byte) (k : Nat) :
    feedParser (feedParser p (f.take k)) (f.drop k) = feedParser p f := by
  rw [← feedParser_append, List.take_append_drop]

theorem feedParser_mspFrame {d : Byte} {p : List Byte} (hd : isMarker d = true) (hlen : p.length ≤ 255) (c : Byte) :
    feedParser Parser.idle (mspFrame d c p) = Parser.idle := by
  have hmem := List.mem_singleton_self (0 + 5 + p.length, Event.frame ⟨d, c, BitVec.ofNat 8 p.length, p⟩)
  rw [← feedEvents_mspFrame hd hlen c 0] at hmem
  exact feedParser_idle_of_last_event hmem (by rw [mspFrame_length]; omega)

/-- Settles O28: the fold over two buffers goes on where the first ended, and a whole frame's one event is on its last
byte. -/
theorem splitIndependence : Obligations.SplitIndependence := by
  refine ⟨fun s w a b => ?anySplit, fun s w d c p f k hd hlen hidle hf hk => ?cutFrame⟩
  case anySplit =>
    have hevents := feedEvents_split s.parser a b
    refine ⟨_, _, _, _, _, exec_pfeedn _, pfeednEnd_result _, exec_pfeedn _, pfeednEnd_result _, exec_pfeedn _,
      ?result, feedParser_append s.parser a b, ?status⟩
    case result => simp [pfeednEnd_result, hevents]
    case status => simp [hevents, eventsFlags_append, eventsFlags_map_add]
  case cutFrame =>
    have hparser : s.parser = Parser.idle := hidle
    have hframe : f = mspFrame d c p := hf
    have hmarker := isMarker_iff.mpr hd
    refine ⟨_, _, _, _, exec_pfeedn _, pfeednEnd_result _, exec_pfeedn _, pfeednEnd_result _, ?event, ?idle⟩
    case event =>
      simp only [State.withPort_parser, State.withPort_port, pfeednEnd_parser, hparser]
      rw [feedEvents_cut _ hk, hframe, feedEvents_mspFrame hmarker hlen, Nat.zero_add, Nat.add_comm]
    case idle =>
      simp only [State.withPort_parser, State.withPort_port, pfeednEnd_parser, hparser]
      rw [feedParser_cut, hframe, feedParser_mspFrame hmarker hlen]
      rfl

/-! ### A reported frame on the wire (R151) -/

/-- The bytes of the frame begun that the parser has taken. -/
def openFrame (p : Parser) : List Byte :=
  match p.pst with
  | .seekDollar => []
  | .seekM => [0x24]
  | .direction => [0x24, 0x4D]
  | .length => [0x24, 0x4D, p.pdir]
  | .command => [0x24, 0x4D, p.pdir, p.plen]
  | .payload | .checksum => [0x24, 0x4D, p.pdir, p.plen, p.pcmd] ++ p.pay

theorem pay_of_ok_command {p : Parser} (hp : p.ok = true) (hs : p.pst = .command) : p.pay = [] := by
  simp only [Parser.ok, hs, Bool.and_eq_true, decide_eq_true_eq] at hp
  obtain ⟨⟨-, hpay⟩, -⟩ := hp
  exact hpay

theorem of_ok_checksum {p : Parser} (hp : p.ok = true) (hs : p.pst = .checksum) :
    isMarker p.pdir = true ∧ p.pay.length = p.plen.toNat ∧ p.pck = mspChecksum p.plen p.pcmd p.pay := by
  simpa only [Parser.ok, hs, Bool.and_eq_true, decide_eq_true_eq, and_assoc] using hp

/-- A byte goes on with the frame begun or leaves none. -/
theorem openFrame_pstep {p : Parser} (hp : p.ok = true) (b : Byte) :
    openFrame (pstep p b).1 = openFrame p ++ [b] ∨ openFrame (pstep p b).1 = [] := by
  rcases pstep_cases p b with ⟨hs, hb, he⟩ | ⟨hs, -, he⟩ | ⟨hs, hb, he⟩ | ⟨-, -, he⟩ | ⟨hs, -, he⟩ | ⟨-, -, he⟩ |
    ⟨hs, he⟩ | ⟨hs, -, he⟩ | ⟨hs, -, he⟩ | ⟨hs, -, he⟩ | ⟨hs, -, he⟩ | ⟨-, -, he⟩ | ⟨-, -, he⟩ <;> rw [he]
  · left; simp [openFrame, hs, hb]
  · right; simp [openFrame, hs]
  · left; simp [openFrame, hs, hb]
  · right; rfl
  · left; simp [openFrame, hs]
  · right; rfl
  · left; simp [openFrame, hs]
  · left; simp [openFrame, hs, pay_of_ok_command hp hs]
  · left; simp [openFrame, hs, pay_of_ok_command hp hs]
  · left; simp [openFrame, hs]
  · left; simp [openFrame, hs]
  · right; rfl
  · right; rfl

/-- The frame begun since idle stands at the end of the bytes fed. -/
theorem openFrame_suffix (bs : List Byte) : openFrame (feedParser Parser.idle bs) <:+ bs := by
  induction bs using List.reverseRecOn with
  | nil => exact List.suffix_refl []
  | append_singleton bs b ih =>
    have hstep : feedParser Parser.idle (bs ++ [b]) = (pstep (feedParser Parser.idle bs) b).1 := feedParser_append ..
    rcases openFrame_pstep (feedParser_ok (p := Parser.idle) rfl bs) b with h | h <;> rw [hstep, h]
    · obtain ⟨pre, hpre⟩ := ih
      exact ⟨pre, by rw [← List.append_assoc, hpre]⟩
    · exact List.nil_suffix

/-- Only a checksum byte that matches completes a frame, the one in the parser registers (R143). -/
theorem pstep_frame {p : Parser} {b : Byte} {f : Frame} (h : (pstep p b).2 = .frame f) :
    p.pst = .checksum ∧ b = p.pck ∧ f = ⟨p.pdir, p.pcmd, p.plen, p.pay⟩ := by
  rcases pstep_cases p b with ⟨-, -, he⟩ | ⟨-, -, he⟩ | ⟨-, -, he⟩ | ⟨-, -, he⟩ | ⟨-, -, he⟩ | ⟨-, -, he⟩ |
    ⟨-, he⟩ | ⟨-, -, he⟩ | ⟨-, -, he⟩ | ⟨-, -, he⟩ | ⟨-, -, he⟩ | ⟨hs, hb, he⟩ | ⟨-, -, he⟩ <;>
    rw [he] at h <;> cases h
  exact ⟨hs, hb, rfl⟩

/-- The bytes up to a reported frame's last end with that frame, checksum included. -/
theorem frame_suffix_of_pstep {pre : List Byte} {b : Byte} {f : Frame}
    (h : (pstep (feedParser Parser.idle pre) b).2 = .frame f) :
    isMarker f.dir = true ∧ f.payload.length = f.len.toNat ∧
      [0x24, 0x4D, f.dir, f.len, f.cmd] ++ f.payload ++ [mspChecksum f.len f.cmd f.payload] <:+ pre ++ [b] := by
  have hok := feedParser_ok (p := Parser.idle) rfl pre
  obtain ⟨head, hhead⟩ := openFrame_suffix pre
  obtain ⟨hs, rfl, rfl⟩ := pstep_frame h
  obtain ⟨hmarker, hlen, hpck⟩ := of_ok_checksum hok hs
  simp only [openFrame, hs] at hhead
  exact ⟨hmarker, hlen, head, by rw [← List.append_assoc, hhead, hpck]⟩

theorem slice_eq_of_append {s pre m post : List Byte} {i j : Nat} (h : s = pre ++ m ++ post) (hi : i = pre.length)
    (hj : j = pre.length + m.length) : slice s i j = m := by
  subst h hi hj
  simp [slice]

/-- Settles O29: the bytes up to the event's own end with the frame. -/
theorem surfacedFramesStandOnTheWire : Obligations.SurfacedFramesStandOnTheWire := by
  intro s hidle
  refine ⟨_, _, exec_pfeedn s, pfeednEnd_result s, fun i f hmem => ?_⟩
  have hparser : s.parser = Parser.idle := hidle
  rw [hparser] at hmem
  obtain ⟨-, pre, b, post, hbs, rfl, hframe⟩ := exists_of_mem_feedEvents hmem
  obtain ⟨hmarker, hlen, head, hhead⟩ := frame_suffix_of_pstep hframe
  have hcount : head.length + (f.payload.length + 6) = pre.length + 1 := by simpa using congrArg List.length hhead
  have hbytes : s.port.ibuf = head ++ ([0x24, 0x4D, f.dir, f.len, f.cmd] ++ f.payload ++
      [mspChecksum f.len f.cmd f.payload]) ++ post := by
    rw [hhead, hbs, List.append_assoc, List.singleton_append]
  refine ⟨isMarker_iff.mp hmarker, hlen.symm, by omega, by simp [hbs], slice_eq_of_append hbytes (by omega) ?_⟩
  simp only [List.length_append, List.length_cons, List.length_nil]
  omega

/-! ### A stray `'$'` (R147) -/

/-- Without a `'$'` the parser goes on seeking and reports nothing. -/
theorem feed_without_dollar {p : Parser} {bs : List Byte} (hp : p.pst = .seekDollar) (h : ∀ b ∈ bs, b ≠ 0x24)
    (i : Nat) : feedParser p bs = p ∧ feedEvents p i bs = [] := by
  induction bs generalizing i with
  | nil => exact ⟨rfl, rfl⟩
  | cons b bs ih =>
    obtain ⟨hb, hbs⟩ := List.forall_mem_cons.mp h
    have hstep : pstep p b = (p, .none) := (pstep_seekDollar b hp).trans (if_neg hb)
    rw [feedParser_cons, feedEvents_cons, hstep]
    exact ih hbs (i + 1)

/-- Settles O30: the second `'$'` takes the parser back to idle, and behind it there is no `'$'`. -/
theorem strayDollarLosesFrameSilently : Obligations.StrayDollarLosesFrameSilently := by
  intro s w d c p hidle hdollar
  have hparser : s.parser = Parser.idle := hidle
  have hrest : ∀ b ∈ 0x4D :: ([d, BitVec.ofNat 8 p.length, c] ++ p ++ [mspChecksum (BitVec.ofNat 8 p.length) c p]),
      b ≠ 0x24 := List.forall_mem_cons.mpr ⟨by decide, hdollar⟩
  obtain ⟨hback, hsilent⟩ := feed_without_dollar (p := Parser.idle) rfl hrest 2
  refine exec_pfeedn_of_silent ?_ ?_
  · rw [State.withPort_parser, hparser]
    exact hback
  · rw [State.withPort_parser, hparser]
    exact hsilent

end Sys2Proof.Machine
end

section
/-! 43_eeprom_record: the field functions, and the operations that move whole records and single fields. -/

namespace Sys2Proof.Machine

/-! ### Strings and their trailing zeros (00_scope R17) -/

theorem rtrim0_zeros (n : Nat) : rtrim0 (List.replicate n 0) = [] := by
  induction n with
  | zero => rfl
  | succ n ih => rw [List.replicate_succ, rtrim0_cons, if_pos ⟨ih, rfl⟩]

theorem rtrim0_append_zeros (s : List Byte) (n : Nat) : rtrim0 (s ++ List.replicate n 0) = rtrim0 s := by
  induction s with
  | nil => exact rtrim0_zeros n
  | cons b bs ih => rw [List.cons_append, rtrim0_cons, rtrim0_cons, ih]

theorem rtrim0_pad0 (s : List Byte) (n : Nat) : rtrim0 (pad0 s n) = rtrim0 s :=
  rtrim0_append_zeros s _

/-- Padding a trimmed string to its old length gives it back. -/
theorem pad0_rtrim0 (s : List Byte) : pad0 (rtrim0 s) s.length = s := by
  induction s with
  | nil => rfl
  | cons b bs ih =>
    rw [rtrim0_cons]
    split
    · next h =>
      obtain ⟨hbs, rfl⟩ := h
      rw [hbs] at ih
      exact congrArg (List.cons 0) ih
    · simpa [pad0] using ih

theorem rtrim0_getLast?_ne_zero (s : List Byte) : (rtrim0 s).getLast? ≠ some 0 := by
  induction s with
  | nil => nofun
  | cons b bs ih =>
    rw [rtrim0_cons]
    split
    · nofun
    · next h =>
      cases hbs : rtrim0 bs with
      | nil => simpa [hbs] using h
      | cons c cs => rwa [List.getLast?_cons_cons, ← hbs]

/-! ### The field functions (R170, R173) -/

theorem decodeField_eq (k : Kind) (s : List Byte) :
    decodeField k s = if k = .asciiString then rtrim0 s else s := by
  cases k <;> rfl

theorem nonAscii_iff {k : Kind} {v : List Byte} :
    nonAscii k v = true ↔ k = .asciiString ∧ ∃ x ∈ v, 0x80 ≤ x.toNat := by
  simp only [nonAscii, Bool.and_eq_true, decide_eq_true_eq, List.any_eq_true]

/-- The flag NONASCII stands in bit 2 of `STATUS` (10_state R34). -/
theorem raiseFlagIf_nonAscii {c : Bool} {p : Prop} [Decidable p] (h : c = true ↔ p) (st : Byte) :
    raiseFlagIf c .nonAscii st = if p then st ||| 0x04#8 else st :=
  if_congr h rfl rfl

theorem encodeField_decodeField {k : Kind} {s : List Byte} (hscalar : k = .scalarU8 → s.length = 1) :
    encodeField k s.length (decodeField k s) = some s := by
  cases k with
  | scalarU8 => exact if_pos (hscalar rfl)
  | asciiString => exact (if_pos (rtrim0_length_le s)).trans (congrArg some (pad0_rtrim0 s))
  | byteArray | opaqueBlock => exact if_pos rfl

theorem decodeField_encodeField {k : Kind} {n : Nat} {v bytes : List Byte} (h : encodeField k n v = some bytes) :
    decodeField k bytes = decodeField k v := by
  cases k <;> simp only [encodeField, Option.ite_none_right_eq_some, Option.some.injEq] at h <;>
    obtain ⟨-, rfl⟩ := h
  case asciiString => exact rtrim0_pad0 v n
  all_goals rfl

/-- Settles O36: the rows are the definitions', and the zeros `rtrim0` takes off are the ones `pad0` puts back. -/
theorem fieldCodecsInvertEachOther : Obligations.FieldCodecsInvertEachOther := by
  refine ⟨fun _ _ => rfl, fun _ _ => rfl, ?_, fun k s hk => (decodeField_eq k s).trans (if_neg hk),
    fun s => ⟨_, (pad0_rtrim0 s).symm, rtrim0_getLast?_ne_zero s⟩, fun _ _ => nonAscii_iff,
    fun _ _ => encodeField_decodeField, fun k n v bytes h => ?_⟩
  · rintro k n v (rfl | rfl) <;> rfl
  · rw [decodeField_encodeField h, decodeField_eq]

/-! ### Reading what was written (00_scope R11) -/

section space
variable {space space' v : List Byte} {i j n : Nat}

theorem memRead_of_le (h : i + n ≤ space.length) : memRead space i n = some (slice space i (i + n)) := by
  rw [memRead, if_pos h, slice, Nat.add_sub_cancel_left]

/-- A read sees only the bytes it asks for. -/
theorem memRead_congr (hlen : space'.length = space.length)
    (h : ∀ m, i ≤ m → m < i + n → space'[m]? = space[m]?) : memRead space' i n = memRead space i n := by
  have hbytes : (space'.drop i).take n = (space.drop i).take n := by
    refine List.ext_getElem? fun m => ?_
    simp only [List.getElem?_take, List.getElem?_drop]
    split
    · exact h _ (by omega) (by omega)
    · rfl
  rw [memRead, memRead, hlen, hbytes]

theorem memWrite_getElem? (h : memWrite space i v = some space') (m : Nat) :
    space'[m]? = if i ≤ m ∧ m < i + v.length then v[m - i]? else space[m]? := by
  split
  · next hm =>
      obtain ⟨hlo, hhi⟩ := hm
      exact memWrite_inside h hlo hhi
  · exact memWrite_outside h (by omega)

theorem memRead_memWrite_same (h : memWrite space i v = some space') : memRead space' i v.length = some v := by
  obtain ⟨hle, rfl⟩ := memWrite_eq_some.mp h
  refine memRead_eq_some.mpr ⟨(memWrite_length h).symm ▸ hle, ?_⟩
  have hi : (space.take i).length = i := List.length_take_of_le (by omega)
  rw [List.append_assoc, List.drop_left' hi, List.take_left]

theorem memRead_memWrite_disjoint (h : memWrite space i v = some space') (hd : j + n ≤ i ∨ i + v.length ≤ j) :
    memRead space' j n = memRead space j n :=
  memRead_congr (memWrite_length h) fun _ _ _ => memWrite_outside h (by omega)

/-- Writing back what was read changes nothing. -/
theorem memWrite_memRead (h : memRead space i n = some v) : memWrite space i v = some space := by
  have hlen := memRead_length h
  obtain ⟨hle, rfl⟩ := memRead_eq_some.mp h
  refine memWrite_eq_some.mpr ⟨hlen.symm ▸ hle, ?_⟩
  rw [hlen, ← List.drop_drop, List.append_assoc, List.take_append_drop, List.take_append_drop]

end space

/-! ### The faults, each tested in its place (R172, R174, R178; 60_exceptions R245) -/

section faults
variable {s : State} {k : Half} {e : SchemaEntry} {b : List Byte}

theorem schema_none (h : s.cfg.nf ≤ k.toNat) : s.cfg.schema[k.toNat]? = none :=
  List.getElem?_eq_none h

theorem schema_some (h : k.toNat < s.cfg.nf) : ∃ e, s.cfg.schema[k.toNat]? = some e :=
  ⟨_, List.getElem?_eq_getElem h⟩

theorem exec_eget_schema (h : s.cfg.nf ≤ k.toNat) : exec (.eget k) s = .next (afterFault .schema s) := by
  simp only [exec, execEget, schema_none h, raise_eq]

theorem exec_eset_schema (h : s.cfg.nf ≤ k.toNat) : exec (.eset k) s = .next (afterFault .schema s) := by
  simp only [exec, execEset, schema_none h, raise_eq]

theorem exec_eenc_schema (h : s.cfg.nf ≤ k.toNat) : exec (.eenc k) s = .next (afterFault .schema s) := by
  simp only [exec, execEenc, schema_none h, raise_eq]

theorem exec_eget_noRecord (h : k.toNat < s.cfg.nf) (hb : s.record = none) :
    exec (.eget k) s = .next (afterFault .noRecord s) := by
  obtain ⟨e, hk⟩ := schema_some h
  simp only [exec, execEget, hk, hb, raise_eq]

theorem exec_eset_noRecord (h : k.toNat < s.cfg.nf) (hb : s.record = none) :
    exec (.eset k) s = .next (afterFault .noRecord s) := by
  obtain ⟨e, hk⟩ := schema_some h
  simp only [exec, execEset, hk, hb, raise_eq]

theorem exec_eset_valueLength (hk : s.cfg.schema[k.toNat]? = some e) (hb : s.record = some b)
    (hv : encodeField e.kind e.length s.port.ibuf = none) : exec (.eset k) s = .next (afterFault .valueLength s) := by
  simp only [exec, execEset, hk, hb, State.ibuf_eq, hv, raise_eq]

theorem exec_eenc_valueLength (hk : s.cfg.schema[k.toNat]? = some e)
    (hv : encodeField e.kind e.length s.port.ibuf = none) : exec (.eenc k) s = .next (afterFault .valueLength s) := by
  simp only [exec, execEenc, hk, State.ibuf_eq, hv, raise_eq]

end faults

/-! ### Whole records (R171, R176) -/

section wholeRecord
variable {s : State} {b : List Byte}

theorem recByte_of_record (hb : s.record = some b) (i : Nat) : s.recByte i = b[i]? := by
  rw [State.recByte, hb, Option.bind_some]

theorem exec_eload (h : s.port.ibuf.length = s.cfg.recLen) :
    exec .eload s = .next (afterOk { err := 0 } (s.withRecord s.port.ibuf)) :=
  if_neg (not_not.mpr h)

theorem exec_estore (hb : s.record = some b) : exec .estore s = .next (afterOk { err := 0, obuf := b } s) := by
  simp only [exec, execEstore, hb, finish_eq]

end wholeRecord

/-- Settles O31: each operation has one test, and both its outcomes. -/
theorem eloadAndEstoreMoveWholeRecords : Obligations.EloadAndEstoreMoveWholeRecords := by
  refine ⟨fun w h => by rw [decode, h]; rfl, fun w h => by rw [decode, h]; rfl, fun s => exec_eload,
    fun s h => if_pos h, fun s b => exec_estore, fun s hb => ?_⟩
  simp only [exec, execEstore, hb, raise_eq]

/-! ### One field (R172, R174, R178) -/

/-- Entry `i` of the schema is `e`, and `b` is a whole record, so that the field lies inside it (00_scope R7,
10_state R32). -/
structure FieldOf (c : Config) (i : Nat) (e : SchemaEntry) (b : List Byte) : Prop where
  wf : c.wf = true
  entry : c.schema[i]? = some e
  whole : b.length = c.recLen

/-- The bytes of a field in a record. -/
def fieldBytes (b : List Byte) (e : SchemaEntry) : List Byte := slice b e.offset (e.offset + e.length)

section FieldOf
variable {c : Config} {i : Nat} {e : SchemaEntry} {b v : List Byte} (h : FieldOf c i e b)
include h

theorem FieldOf.inside : e.offset + e.length ≤ b.length := by
  obtain ⟨-, hinside, -⟩ := Config.wf_entry h.wf (List.mem_of_getElem? h.entry)
  exact hinside.trans h.whole.ge

theorem FieldOf.memRead : memRead b e.offset e.length = some (fieldBytes b e) :=
  memRead_of_le h.inside

theorem FieldOf.fieldBytes_length : (fieldBytes b e).length = e.length :=
  memRead_length h.memRead

theorem FieldOf.scalar (hkind : e.kind = .scalarU8) : e.length = 1 := by
  obtain ⟨-, -, hscalar⟩ := Config.wf_entry h.wf (List.mem_of_getElem? h.entry)
  exact hscalar hkind

/-- The value decoded from a field is encoded as the bytes of the field. -/
theorem FieldOf.encodeField_decodeField :
    encodeField e.kind e.length (decodeField e.kind (fieldBytes b e)) = some (fieldBytes b e) := by
  have hbytes := h.fieldBytes_length
  rw [← hbytes]
  exact Machine.encodeField_decodeField fun hkind => hbytes.trans (h.scalar hkind)

theorem FieldOf.memWrite_fieldBytes : memWrite b e.offset (fieldBytes b e) = some b :=
  memWrite_memRead h.memRead

theorem FieldOf.exists_memWrite (hlen : v.length = e.length) : ∃ b', memWrite b e.offset v = some b' :=
  Option.ne_none_iff_exists'.mp (memWrite_ne_none (hlen ▸ h.inside))

end FieldOf

/-- A field's offset fits in `R16`: the field is not empty, and RECLEN is at most 65536 (00_scope R6, R7). -/
theorem offset_toNat {c : Config} (hwf : c.wf = true) {e : SchemaEntry} (he : e ∈ c.schema) :
    (BitVec.ofNat 16 e.offset).toNat = e.offset := by
  obtain ⟨hpos, hinside, -⟩ := Config.wf_entry hwf he
  obtain ⟨-, hmax, -⟩ := Config.wf_sizes hwf
  rw [BitVec.toNat_ofNat, Nat.mod_eq_of_lt (by omega)]

theorem wf_encodeField_length {c : Config} (hwf : c.wf = true) {i : Nat} {e : SchemaEntry} {v bytes : List Byte}
    (he : c.schema[i]? = some e) (hv : encodeField e.kind e.length v = some bytes) : bytes.length = e.length := by
  obtain ⟨-, -, hscalar⟩ := Config.wf_entry hwf (List.mem_of_getElem? he)
  exact encodeField_length hscalar hv

/-- The state after `EGET` of a field of kind `kd` with value `v`. -/
def egetEnd (s : State) (kd : Kind) (v : List Byte) : State :=
  afterOk (egetResult kd v) (s.withStatus (raiseFlagIf (nonAscii kd v) .nonAscii s.status))

/-- The state after `ESET` of a field of kind `kd` has made the record `b`. -/
def esetEnd (s : State) (kd : Kind) (b : List Byte) : State :=
  afterOk { err := 0 } ((s.withRecord b).withStatus (raiseFlagIf (nonAscii kd s.port.ibuf) .nonAscii s.status))

theorem egetResult_eq {kd : Kind} {v : List Byte} (hscalar : kd = .scalarU8 → v.length = 1) :
    egetResult kd v =
      { err := 0, kind := some kd, obuf := v, r8 := if kd = .scalarU8 then v.head? else none } := by
  rw [egetResult]
  split
  · next hkind =>
    obtain ⟨x, rfl⟩ := List.length_eq_one_iff.mp (hscalar hkind)
    rfl
  · rfl

section field
variable {s : State} {k : Half} {e : SchemaEntry} {b b' v : List Byte}

theorem exec_eget (hk : s.cfg.schema[k.toNat]? = some e) (hb : s.record = some b)
    (hread : memRead b e.offset e.length = some v) :
    exec (.eget k) s = .next (egetEnd s e.kind (decodeField e.kind v)) := by
  simp only [exec, execEget, hk, hb, hread, finish_eq, egetEnd]

theorem exec_eset (hk : s.cfg.schema[k.toNat]? = some e) (hb : s.record = some b)
    (hv : encodeField e.kind e.length s.port.ibuf = some v) (hwrite : memWrite b e.offset v = some b') :
    exec (.eset k) s = .next (esetEnd s e.kind b') := by
  simp only [exec, execEset, hk, hb, State.ibuf_eq, hv, hwrite, finish_eq, esetEnd, Result.ok]

theorem exec_eenc (hk : s.cfg.schema[k.toNat]? = some e)
    (hv : encodeField e.kind e.length s.port.ibuf = some v) :
    exec (.eenc k) s = .next (afterOk { err := 0, obuf := v, r16 := some (BitVec.ofNat 16 e.offset) }
      (s.withStatus (raiseFlagIf (nonAscii e.kind s.port.ibuf) .nonAscii s.status))) := by
  simp only [exec, execEenc, hk, State.ibuf_eq, hv, finish_eq]

theorem FieldOf.eget (h : FieldOf s.cfg k.toNat e b) (hb : s.record = some b) :
    exec (.eget k) s = .next (egetEnd s e.kind (decodeField e.kind (fieldBytes b e))) :=
  exec_eget h.entry hb h.memRead

theorem FieldOf.eset (h : FieldOf s.cfg k.toNat e b) (hb : s.record = some b)
    (hv : encodeField e.kind e.length s.port.ibuf = some v) :
    ∃ b', memWrite b e.offset v = some b' ∧ exec (.eset k) s = .next (esetEnd s e.kind b') := by
  obtain ⟨b', hwrite⟩ := h.exists_memWrite (wf_encodeField_length h.wf h.entry hv)
  exact ⟨b', hwrite, exec_eset h.entry hb hv hwrite⟩

/-- `EGET` shows the same of two records that hold the same bytes in the field. -/
theorem FieldOf.eget_congr {s' : State} (h : FieldOf s.cfg k.toNat e b) (hb : s.record = some b)
    (hcfg : s'.cfg = s.cfg) (hb' : s'.record = some b')
    (hread : Machine.memRead b' e.offset e.length = Machine.memRead b e.offset e.length) :
    ∃ u u', exec (.eget k) s = .next u ∧ exec (.eget k) s' = .next u' ∧ u'.result = u.result :=
  ⟨_, _, h.eget hb, exec_eget (hcfg ▸ h.entry) hb' (hread.trans h.memRead), rfl⟩

end field

/-- Settles O32: the read lies inside the record, and the value is what `decodeField` makes of it. -/
theorem egetDecodesOneField : Obligations.EgetDecodesOneField := by
  refine ⟨fun w h => by rw [decode, h]; rfl, ?_, fun s k => exec_eget_schema, fun s k => exec_eget_noRecord⟩
  intro s k e b v hwf hk hb hlen hv
  have h : FieldOf s.cfg k.toNat e b := ⟨hwf, hk, hlen⟩
  have hvalue : v = decodeField e.kind (fieldBytes b e) := hv.trans (decodeField_eq ..).symm
  have hscalar : e.kind = .scalarU8 → v.length = 1 := fun hkind => by
    rw [hvalue, hkind]
    exact h.fieldBytes_length.trans (h.scalar hkind)
  rw [h.eget hb, ← hvalue, egetEnd, egetResult_eq hscalar, raiseFlagIf_nonAscii nonAscii_iff]
  rfl

/-- Settles O33: the encoded bytes are as many as the field has, and `memWrite` keeps every byte outside them. -/
theorem esetWritesExactlyOneField : Obligations.EsetWritesExactlyOneField := by
  refine ⟨fun w h => by rw [decode, h]; rfl, ?_, fun s k => exec_eset_schema, fun s k => exec_eset_noRecord,
    fun s k e b => exec_eset_valueLength⟩
  intro s k e b v hwf hk hb hlen hv
  have hfield := wf_encodeField_length hwf hk hv
  obtain ⟨b', hwrite, hset⟩ := FieldOf.eset ⟨hwf, hk, hlen⟩ hb hv
  refine ⟨b', ?_, hfield, (memWrite_length hwrite).trans hlen, fun i hi hi' => ?_, fun i hi => ?_⟩
  · rw [hset, esetEnd, raiseFlagIf_nonAscii nonAscii_iff]
    rfl
  · exact memWrite_inside hwrite hi (hfield.symm ▸ hi')
  · exact memWrite_outside hwrite (hfield.symm ▸ hi)

/-- Settles O35: EENC shows the bytes and the offset that ESET hands to `memWrite`. -/
theorem eencEncodesOneField : Obligations.EencEncodesOneField := by
  refine ⟨fun w h => by rw [decode, h]; rfl, ?_, fun s k => exec_eenc_schema, fun s k e => exec_eenc_valueLength, ?_⟩
  · intro s k e v hwf hk hv
    refine ⟨?_, wf_encodeField_length hwf hk hv, offset_toNat hwf (List.mem_of_getElem? hk)⟩
    rw [exec_eenc hk hv, raiseFlagIf_nonAscii nonAscii_iff]
    rfl
  · intro s k e b v hwf hk hb hlen hv
    obtain ⟨b', hwrite, hset⟩ := FieldOf.eset ⟨hwf, hk, hlen⟩ hb hv
    refine ⟨_, _, _, _, hset, exec_eenc hk hv, rfl, rfl, fun i => ?_⟩
    rw [offset_toNat hwf (List.mem_of_getElem? hk), recByte_of_record hb, recByte_of_record rfl]
    exact memWrite_getElem? hwrite i

/-- Settles O38: the field reads back as written, and every other field shares no byte with it (00_scope R7). -/
theorem readAfterFieldWrite : Obligations.ReadAfterFieldWrite := by
  intro s k e b v hwf hk hb hlen hv
  have hfield := wf_encodeField_length hwf hk hv
  obtain ⟨b', hwrite, hset⟩ := FieldOf.eset ⟨hwf, hk, hlen⟩ hb hv
  refine ⟨_, hset, ?_, fun j hjk hj => ?_⟩
  · have hread : memRead b' e.offset e.length = some v := hfield ▸ memRead_memWrite_same hwrite
    refine ⟨_, _, exec_eget hk rfl hread, rfl, rfl, ?_⟩
    exact (decodeField_encodeField hv).trans (decodeField_eq ..)
  · obtain ⟨f, hf⟩ := schema_some hj
    have hdisjoint := Config.wf_disjoint hwf hf hk fun h => hjk (BitVec.eq_of_toNat_eq h)
    exact FieldOf.eget_congr ⟨hwf, hf, hlen⟩ hb rfl rfl (memRead_memWrite_disjoint hwrite (hfield.symm ▸ hdisjoint))

/-! ### Bytes outside every field (R175) -/

/-- `ESET` leaves the record as it was, or writes inside the field. -/
theorem eset_keeps_uncovered {s t : State} {i : Nat} {k : Half} (hwf : s.cfg.wf = true)
    (hi : ∀ e ∈ s.cfg.schema, i < e.offset ∨ e.offset + e.length ≤ i) (h : exec (.eset k) s = .next t) :
    t.recByte i = s.recByte i := by
  rcases execEset_cases k s with ⟨-, he⟩ | ⟨_, -, -, he⟩ | ⟨_, _, -, -, -, he⟩ | ⟨_, _, _, -, -, -, -, he⟩ |
    ⟨e, b, v, b', hk, hb, hv, hwrite, he⟩
  · cases he.symm.trans h; rfl
  · cases he.symm.trans h; rfl
  · cases he.symm.trans h; rfl
  · cases he.symm.trans h
  · cases he.symm.trans h
    rw [recByte_of_record hb, recByte_of_record rfl]
    exact memWrite_outside hwrite (wf_encodeField_length hwf hk hv ▸ hi e (List.mem_of_getElem? hk))

/-- Settles O39: no field's read or write reaches the byte. -/
theorem uncoveredBytesAreCarried : Obligations.UncoveredBytesAreCarried := by
  intro s i k hwf hok hi
  refine ⟨fun t => eset_keeps_uncovered hwf hi, fun b x hb => ?_⟩
  rcases Nat.lt_or_ge k.toNat s.cfg.nf with hk | hk
  · obtain ⟨e, he⟩ := schema_some hk
    refine FieldOf.eget_congr ⟨hwf, he, (recordOk_of_some hb).mp hok⟩ hb rfl rfl
      (memRead_congr List.length_set fun m _ _ => List.getElem?_set_ne ?_)
    have := hi e (List.mem_of_getElem? he)
    omega
  · exact ⟨_, _, exec_eget_schema hk, exec_eget_schema hk, rfl⟩

/-! ### Every field of a raw block (R177) -/

/-- The entry of `FIELDS` for schema entry `e`, which has index `i`. -/
def fieldValue (block : List Byte) (i : Nat) (e : SchemaEntry) : FieldValue :=
  ⟨i, e.kind, decodeField e.kind (fieldBytes block e)⟩

theorem edecFields_eq {block : List Byte} {es : List SchemaEntry}
    (h : ∀ e ∈ es, e.offset + e.length ≤ block.length) (k : Nat) :
    edecFields block k es = some (es.mapIdx fun i => fieldValue block (k + i)) := by
  induction es generalizing k with
  | nil => rfl
  | cons e es ih =>
    obtain ⟨he, hes⟩ := List.forall_mem_cons.mp h
    simp only [edecFields, memRead_of_le he, ih hes, List.mapIdx_cons, Nat.add_assoc, Nat.add_comm 1]
    rfl

theorem getElem?_fields {block : List Byte} {es : List SchemaEntry} {i : Nat} {f : FieldValue} :
    (es.mapIdx (fieldValue block))[i]? = some f ↔ ∃ e, es[i]? = some e ∧ fieldValue block i e = f := by
  rw [List.getElem?_mapIdx, Option.map_eq_some_iff]

theorem any_nonAscii_iff {fs : List FieldValue} :
    (fs.any fun f => nonAscii f.kind f.value) = true ↔
      ∃ f ∈ fs, f.kind = .asciiString ∧ ∃ x ∈ f.value, 0x80 ≤ x.toNat := by
  simp only [List.any_eq_true, nonAscii_iff]

theorem exec_edec {s : State} (hwf : s.cfg.wf = true) (hlen : s.port.ibuf.length = s.cfg.recLen) :
    exec .edec s = .next (afterOk { err := 0, fields := some (s.cfg.schema.mapIdx (fieldValue s.port.ibuf)) }
      (s.withStatus (raiseFlagIf
        ((s.cfg.schema.mapIdx (fieldValue s.port.ibuf)).any fun f => nonAscii f.kind f.value) .nonAscii s.status))) := by
  have hinside : ∀ e ∈ s.cfg.schema, e.offset + e.length ≤ s.port.ibuf.length := fun e he => by
    obtain ⟨-, hinside, -⟩ := Config.wf_entry hwf he
    exact hinside.trans hlen.ge
  have hfields := edecFields_eq hinside 0
  simp only [Nat.zero_add] at hfields
  simp only [exec, execEdec, State.ilen_eq, State.ibuf_eq, hlen, ne_eq, not_true_eq_false, if_false, hfields, finish_eq]

/-- Settles O34: `FIELDS` is `fieldValue` at each schema entry, and the value there is the one EGET reads of the same
bytes. -/
theorem edecDecodesEveryField : Obligations.EdecDecodesEveryField := by
  refine ⟨fun w h => by rw [decode, h]; rfl, fun s h => if_pos h, fun s hwf hlen => ?_⟩
  refine ⟨s.cfg.schema.mapIdx (fieldValue s.port.ibuf), ?_, List.length_mapIdx, fun k e hk => ?_, fun k f hf => ?_⟩
  · rw [exec_edec hwf hlen, raiseFlagIf_nonAscii any_nonAscii_iff]
    rfl
  · exact getElem?_fields.mpr ⟨e, hk, by rw [fieldValue, decodeField_eq]; rfl⟩
  · obtain ⟨e, hk, rfl⟩ := getElem?_fields.mp hf
    have h : FieldOf s.cfg k.toNat e s.port.ibuf := ⟨hwf, hk, hlen⟩
    exact ⟨_, _, _, exec_eload hlen, h.eget (s := afterOk _ (s.withRecord s.port.ibuf)) rfl, rfl, rfl, rfl⟩

/-! ### The record round trip (R179) -/

theorem rewriteFields_cons {s t u : State} {k : Half} {r : Result} (hget : exec (.eget k) s = .next t)
    (hr : t.result = some r) (hset : exec (.eset k) (t.withPort ⟨encode (.eset k), r.obuf⟩) = .next u)
    (ks : List Half) : rewriteFields (k :: ks) s = rewriteFields ks u := by
  simp only [rewriteFields, hget, hr, hset]

/-- Writing back the value just read keeps the record: the value is encoded as the bytes it was decoded from. -/
theorem FieldOf.rewrite {s : State} {k : Half} {e : SchemaEntry} {b : List Byte} (h : FieldOf s.cfg k.toNat e b)
    (hb : s.record = some b) (ks : List Half) :
    ∃ u, rewriteFields (k :: ks) s = rewriteFields ks u ∧ u.record = some b ∧ u.cfg = s.cfg :=
  ⟨_, rewriteFields_cons (h.eget hb) rfl (exec_eset h.entry hb h.encodeField_decodeField h.memWrite_fieldBytes) ks,
    rfl, rfl⟩

theorem rewriteFields_keeps_record {s : State} {b : List Byte} {ks : List Half} (hwf : s.cfg.wf = true)
    (hlen : b.length = s.cfg.recLen) (hb : s.record = some b) (hks : ∀ k ∈ ks, k.toNat < s.cfg.nf) :
    ∃ t, rewriteFields ks s = some t ∧ t.record = some b := by
  induction ks generalizing s with
  | nil => exact ⟨s, rfl, hb⟩
  | cons k ks ih =>
    obtain ⟨hk, hks⟩ := List.forall_mem_cons.mp hks
    obtain ⟨e, he⟩ := schema_some hk
    obtain ⟨u, hu, hrecord, hcfg⟩ := FieldOf.rewrite ⟨hwf, he, hlen⟩ hb ks
    rw [hu]
    rw [← hcfg] at hwf hlen hks
    exact ih hwf hlen hrecord hks

/-- Settles O37: a decoded value is encoded as the bytes of its field, and writing the bytes that stand there changes
nothing. -/
theorem recordRoundTrip : Obligations.RecordRoundTrip := by
  intro s w b hwf hlen
  refine ⟨_, exec_eload hlen, ⟨_, exec_estore rfl, rfl⟩, fun ks hks => ?_, ?_⟩
  · obtain ⟨t, ht, hrecord⟩ := rewriteFields_keeps_record
      (s := afterOk { err := 0 } ((s.withPort ⟨w, b⟩).withRecord b)) hwf hlen rfl hks
    exact ⟨t, _, ht, exec_estore hrecord, rfl⟩
  · refine ⟨_, _, exec_edec hwf hlen, rfl, fun k f hf => ?_⟩
    obtain ⟨e, hk, rfl⟩ := getElem?_fields.mp hf
    have h : FieldOf s.cfg k.toNat e b := ⟨hwf, hk, hlen⟩
    refine ⟨_, _, _, exec_eenc hk h.encodeField_decodeField, rfl, ?_⟩
    rw [offset_toNat hwf (List.mem_of_getElem? hk)]
    exact h.memWrite_fieldBytes

end Sys2Proof.Machine
end

section
/-! 44_fourway_frame_codec: FENC.C and FENC.R build frames, FDEC takes the response form apart, and what it rejects. -/

namespace Sys2Proof.Machine

/-! ### The encoders (R200 to R202) -/

theorem exec_fencC_tooManyParameters {s : State} (h : 256 < s.ilen) (c : Byte) (a : Half) :
    exec (.fencC c a) s = .next (afterFault .tooManyParameters s) :=
  if_pos h

theorem exec_fencR_tooManyParameters {s : State} (h : 256 < s.ilen) (c k : Byte) (a : Half) :
    exec (.fencR c k a) s = .next (afterFault .tooManyParameters s) :=
  if_pos h

/-- Settles O40: the select codes pick the encoders, whose one test picks the frame of `fwParams` or the fault. -/
theorem fourWayEncodersBuildFrames : Obligations.FourWayEncodersBuildFrames := by
  refine ⟨fun w h => by rw [decode, h]; rfl, fun w h => by rw [decode, h]; rfl, fun s a k w q body hle hq hbody => ?_,
    fun s a k w hlong => ⟨exec_fencC_tooManyParameters hlong a w, exec_fencR_tooManyParameters hlong a k w⟩⟩
  have hparams : fwParams s.ibuf = q := hq.symm
  have hhead : fwHead a w q = body := by rw [hbody, fwHead, countByte_eq_ofNat]
  refine ⟨?_, ?_⟩
  · rw [exec_fencC_of_le hle, fwCommandForm, hparams, hhead]; rfl
  · rw [exec_fencR_of_le hle, fwResponseForm, hparams, hhead]; rfl

/-! ### The three tests of `FDEC` (R206) -/

section fdec
variable {s : State} {n : Nat} (hn : n = countOf (byteAt s.ibuf 4))
include hn

/-- A count is at least 1, so fewer than 9 bytes are too few whatever the count byte says. -/
theorem exec_fdec_shortFrame (hlen : s.ilen < 8 + n) : exec .fdec s = .next (afterFault .shortFrame s) := by
  subst hn
  rcases execFdec_cases s with ⟨-, he⟩ | ⟨-, -, he⟩ | ⟨-, hle, -⟩ | ⟨-, hle, -⟩
  · exact he
  · exact he
  · exact absurd hlen (Nat.not_lt.mpr hle)
  · exact absurd hlen (Nat.not_lt.mpr hle)

theorem exec_fdec_of_le (hlen : 8 + n ≤ s.ilen) :
    exec .fdec s =
      if crc16 (slice s.ibuf 0 (6 + n)) = be16 (byteAt s.ibuf (6 + n)) (byteAt s.ibuf (7 + n)) then
        .next (afterOk (fdecResult s.ibuf n) s)
      else .next (afterFault .checksum s) := by
  have hpos := countOf_pos (byteAt s.ibuf 4)
  subst hn
  rcases execFdec_cases s with ⟨h9, -⟩ | ⟨-, hlt, -⟩ | ⟨-, -, hcrc, he⟩ | ⟨-, -, hcrc, he⟩
  · omega
  · omega
  · exact he.trans (if_neg hcrc).symm
  · exact he.trans (if_pos hcrc).symm

end fdec

theorem some_byteAt {s : List Byte} {i : Nat} (h : i < s.length) : some (byteAt s i) = s[i]? := by
  rw [byteAt, List.getD_eq_getElem _ _ h, List.getElem?_eq_getElem h]

/-- Settles O41: the select code picks FDEC, and the length tests and the CRC test pick the outcome. -/
theorem fdecTakesResponseFormApart : Obligations.FdecTakesResponseFormApart := by
  refine ⟨fun w h => by rw [decode, h]; rfl, fun s hlen => ?_, fun s n _ hn hlen => exec_fdec_shortFrame hn hlen,
    fun s n recv hn hlen hrecv hcrc => ?_, fun s n recv hn hlen hrecv hcrc => ?_⟩
  · have hpos := countOf_pos (byteAt s.ibuf 4)
    exact exec_fdec_shortFrame rfl (hlen.trans_le (by omega))
  · subst hrecv
    exact (exec_fdec_of_le hn hlen).trans (if_neg hcrc)
  · subst hrecv
    have hpos : 1 ≤ n := hn ▸ countOf_pos _
    rw [← some_byteAt (i := 0) (by omega), ← some_byteAt (i := 1) (by omega), ← some_byteAt (i := 5 + n) (by omega)]
    exact (exec_fdec_of_le hn hlen).trans (if_pos hcrc)

/-! ### The bytes of a 16-bit value (00_scope R10) -/

theorem be16_hi8_lo8 (w : Half) : be16 (hi8 w) (lo8 w) = w := by
  ext i hi
  rcases Nat.lt_or_ge i 8 with h | h
  · simp [be16, lo8, h, BitVec.getLsbD_eq_getElem hi]
  · have hhigh : i - 8 < 8 := by omega
    simp [be16, hi8, lo8, Nat.not_lt.mpr h, hhigh, Nat.add_sub_cancel' h, BitVec.getLsbD_eq_getElem hi]

theorem hi8_be16 (h l : Byte) : hi8 (be16 h l) = h := by
  ext i hi
  simp [be16, hi8, BitVec.getLsbD_eq_getElem hi, show 8 + i < 16 by omega]

theorem lo8_be16 (h l : Byte) : lo8 (be16 h l) = l := by
  ext i hi
  simp [be16, lo8, hi, show i < 16 by omega]

/-! ### The CRC loses nothing (00_scope R15) -/

/-- The polynomial has bit 0 set, so a shift shows there the bit it shifted out. -/
theorem crcShift_getLsbD_zero (t : Half) : (crcShift t).getLsbD 0 = t.getLsbD 15 := by
  unfold crcShift
  cases t.getLsbD 15 <;> simp

theorem crcShift_injective : Function.Injective crcShift := by
  intro t u h
  have htop : t.getLsbD 15 = u.getLsbD 15 := by rw [← crcShift_getLsbD_zero, h, crcShift_getLsbD_zero]
  have hshift : t <<< 1 = u <<< 1 := by
    unfold crcShift at h
    rw [htop] at h
    split at h
    · exact (BitVec.xor_left_inj _).mp h
    · exact h
  refine BitVec.eq_of_getLsbD_eq fun i hi => ?_
  rcases Nat.lt_or_ge i 15 with hlow | hhigh
  · have hbit := congrArg (BitVec.getLsbD · (i + 1)) hshift
    have hnext : i + 1 < 16 := by omega
    simpa only [BitVec.getLsbD_shiftLeft, hnext, Nat.add_sub_cancel, decide_true, Nat.not_lt.mpr (Nat.le_add_left 1 i),
      decide_false, Bool.not_false, Bool.true_and] using hbit
  · obtain rfl : i = 15 := by omega
    exact htop

theorem crcShifts_injective (n : Nat) : Function.Injective (crcShifts n) := by
  induction n with
  | zero => exact Function.injective_id
  | succ n ih => exact ih.comp crcShift_injective

theorem crc16Step_left_inj {c d : Half} {b : Byte} : crc16Step c b = crc16Step d b ↔ c = d :=
  (crcShifts_injective 8).eq_iff.trans (BitVec.xor_left_inj _)

theorem be16_zero (b : Byte) : be16 b 0 = b.setWidth 16 <<< 8 := by simp [be16]

theorem crc16Step_right_inj {c : Half} {a b : Byte} : crc16Step c a = crc16Step c b ↔ a = b := by
  refine (crcShifts_injective 8).eq_iff.trans ((BitVec.xor_right_inj _).trans ?_)
  rw [← be16_zero, ← be16_zero]
  exact (Function.LeftInverse.injective fun x => hi8_be16 x 0).eq_iff

theorem crc16From_left_inj {c d : Half} {s : List Byte} : crc16From c s = crc16From d s ↔ c = d := by
  induction s generalizing c d with
  | nil => exact Iff.rfl
  | cons b s ih => rw [crc16From_cons, crc16From_cons, ih, crc16Step_left_inj]

theorem crc16From_set_ne {c : Half} {s : List Byte} {j : Nat} {old b : Byte} (h : s[j]? = some old) (hne : b ≠ old) :
    crc16From c (s.set j b) ≠ crc16From c s := by
  induction s generalizing c j with
  | nil => cases h
  | cons x xs ih =>
    cases j with
    | zero =>
      cases h
      rw [List.set_cons_zero, crc16From_cons, crc16From_cons]
      exact fun heq => hne (crc16Step_right_inj.mp (crc16From_left_inj.mp heq))
    | succ j => exact ih h

/-- Two bytes are the CRC of the bytes before them exactly when the CRC of all is zero. -/
theorem crc16_eq_be16_iff {s : List Byte} {h l : Byte} : crc16 s = be16 h l ↔ crc16 (s ++ [h, l]) = 0 := by
  have hresidue : crc16From (be16 h l) [h, l] = 0 := by
    have hhigh := crc16Step_hi8 (be16 h l)
    rw [hi8_be16, lo8_be16] at hhigh
    rw [crc16From_cons, hhigh]
    exact crc16Step_cancel l
  rw [crc16_append, ← hresidue, crc16From_left_inj]

theorem crc16_withCrc (s : List Byte) : crc16 (withCrc s) = 0 := crcResidueIsZero s

/-! ### `FDEC` accepts a frame exactly when the CRC of its bytes, its own CRC included, is zero -/

theorem slice_append_byteAt {s : List Byte} {n : Nat} (h : 8 + n ≤ s.length) :
    slice s 0 (6 + n) ++ [byteAt s (6 + n), byteAt s (7 + n)] = s.take (8 + n) := by
  have h6 : 6 + n < s.length := by omega
  have h7 : 6 + n + 1 < s.length := by omega
  rw [show 8 + n = 6 + n + 1 + 1 by omega, show 7 + n = 6 + n + 1 by omega, List.take_add_one, List.take_add_one,
    ← some_byteAt h6, ← some_byteAt h7]
  simp [slice]

theorem exec_fdec_of_residue {s : State} {n : Nat} (hn : n = countOf (byteAt s.ibuf 4)) (hlen : 8 + n ≤ s.ilen) :
    exec .fdec s =
      if crc16 (s.ibuf.take (8 + n)) = 0 then .next (afterOk (fdecResult s.ibuf n) s)
      else .next (afterFault .checksum s) := by
  rw [exec_fdec_of_le hn hlen]
  simp only [crc16_eq_be16_iff, slice_append_byteAt hlen]

/-! ### The frames of the encoders, as `FDEC` reads them -/

theorem fwHead_length (c : Byte) (a : Half) (p : List Byte) : (fwHead c a p).length = p.length + 5 := by
  simp [fwHead]

theorem byteAt_of_append {s pre post : List Byte} {b : Byte} {i : Nat} (h : s = pre ++ b :: post)
    (hi : i = pre.length) : byteAt s i = b := by
  subst h hi
  simp [byteAt]

/-- `FDEC` reads the count byte of `fwHead`, whatever follows the parameters. -/
theorem countOf_fwHead {c : Byte} {a : Half} {p t : List Byte} (hpos : 1 ≤ p.length) (hle : p.length ≤ 256) :
    countOf (byteAt (fwHead c a p ++ t) 4) = p.length :=
  countOf_countByte hpos hle

/-- The fields of the bytes that begin with `fwHead` and go on with three more. -/
theorem fdecResult_fwHead {raw p rest : List Byte} {c k h l : Byte} {a : Half}
    (hraw : raw = fwHead c a p ++ k :: h :: l :: rest) :
    fdecResult raw p.length =
      { err := 0, sent := some 0x2F, cmd := some c, addr := some a, count := some p.length, obuf := p, ack := some k
        crc := some (be16 h l), used := some (p.length + 8), trail := some (decide (0 < rest.length)) } := by
  have hhead := fwHead_length c a p
  have haddr : be16 (byteAt raw 2) (byteAt raw 3) = a := by subst hraw; exact be16_hi8_lo8 a
  have hobuf : slice raw 5 (p.length + 5) = p :=
    slice_eq_of_append (pre := [0x2F, c, hi8 a, lo8 a, countByte p.length]) hraw rfl (Nat.add_comm ..)
  have hack : byteAt raw (p.length + 5) = k := byteAt_of_append hraw hhead.symm
  have hhigh : byteAt raw (p.length + 6) = h :=
    byteAt_of_append (pre := fwHead c a p ++ [k]) (post := l :: rest) (by simp [hraw]) (by simp [hhead])
  have hlow : byteAt raw (p.length + 7) = l :=
    byteAt_of_append (pre := fwHead c a p ++ [k, h]) (post := rest) (by simp [hraw]) (by simp [hhead])
  have htrail : p.length + 8 < raw.length ↔ 0 < rest.length := by
    simp only [hraw, List.length_append, hhead, List.length_cons]; omega
  simp only [fdecResult, Nat.add_comm _ p.length, haddr, hobuf, hack, hhigh, hlow, htrail]
  subst hraw
  rfl

/-- `FDEC` takes the three bytes behind `fwHead` as the ack and the CRC. -/
theorem exec_fdec_fwHead {s : State} {v : CmdWord} {raw p rest : List Byte} {c k h l : Byte} {a : Half}
    (hpos : 1 ≤ p.length) (hle : p.length ≤ 256) (hraw : raw = fwHead c a p ++ k :: h :: l :: rest) :
    exec .fdec (s.withPort ⟨v, raw⟩) =
      if crc16 (fwHead c a p ++ [k, h, l]) = 0 then
        .next (afterOk
          { err := 0, sent := some 0x2F, cmd := some c, addr := some a, count := some p.length, obuf := p
            ack := some k, crc := some (be16 h l), used := some (p.length + 8)
            trail := some (decide (0 < rest.length)) } (s.withPort ⟨v, raw⟩))
      else .next (afterFault .checksum (s.withPort ⟨v, raw⟩)) := by
  have hhead := fwHead_length c a p
  have hcount : p.length = countOf (byteAt raw 4) := by rw [hraw, countOf_fwHead hpos hle]
  have hlen : 8 + p.length ≤ raw.length := by
    simp only [hraw, List.length_append, hhead, List.length_cons]; omega
  have htake : raw.take (8 + p.length) = fwHead c a p ++ [k, h, l] := by
    rw [hraw, show 8 + p.length = (fwHead c a p).length + 3 by omega, List.take_length_add_append]; rfl
  refine (exec_fdec_of_residue hcount hlen).trans ?_
  rw [State.ibuf_eq, State.withPort_port, htake, fdecResult_fwHead hraw]

theorem exists_fwCommandForm_eq (c : Byte) (a : Half) (q : List Byte) :
    ∃ h l, fwCommandForm c a q = fwHead c a (fwParams q) ++ [h, l] := ⟨_, _, rfl⟩

theorem exists_fwResponseForm_eq (c k : Byte) (a : Half) (q : List Byte) :
    ∃ h l, fwResponseForm c k a q = fwHead c a (fwParams q) ++ [k, h, l] := ⟨_, _, List.append_assoc ..⟩

theorem crc16_fwResponseForm (c k : Byte) (a : Half) (q : List Byte) : crc16 (fwResponseForm c k a q) = 0 :=
  crc16_withCrc _

/-- Settles O42: the CRC of a whole frame is zero, and both forms begin with `fwHead`. -/
theorem fourWayRoundTrip : Obligations.FourWayRoundTrip := by
  intro s c k a w v q p hlen hp
  obtain rfl : p = fwParams q := hp
  obtain ⟨hpos, hle⟩ := fwParams_length hlen
  obtain ⟨_, _, hcommand⟩ := exists_fwCommandForm_eq c a q
  obtain ⟨h, l, hresponse⟩ := exists_fwResponseForm_eq c k a q
  have hprefix : (fwCommandForm c a q).take ((fwParams q).length + 5) =
      (fwResponseForm c k a q).take ((fwParams q).length + 5) := by
    rw [hcommand, hresponse, List.take_left' (fwHead_length ..), List.take_left' (fwHead_length ..)]
  have hcrc := crc16_fwResponseForm c k a q
  rw [hresponse] at hcrc
  exact ⟨_, _, _, _, _, exec_fencR_of_le (s := s.withPort ⟨w, q⟩) hlen c k a, rfl,
    exec_fencC_of_le (s := s.withPort ⟨w, q⟩) hlen c a, rfl, hprefix,
    (exec_fdec_fwHead hpos hle hresponse).trans (if_pos hcrc), _, rfl⟩

/-! ### One byte changed (R211) -/

theorem byteAt_set_ne {s : List Byte} {i j : Nat} (h : i ≠ j) (b : Byte) : byteAt (s.set i b) j = byteAt s j := by
  rw [byteAt, byteAt, List.getD_eq_getElem?_getD, List.getElem?_set_ne h, List.getD_eq_getElem?_getD]

theorem byteAt_set_self {s : List Byte} {i : Nat} (h : i < s.length) (b : Byte) : byteAt (s.set i b) i = b := by
  rw [byteAt, List.getD_eq_getElem?_getD, List.getElem?_set_self h]; rfl

/-- Settles O44: the CRC of the whole frame was zero, and one changed byte moves it; a changed count byte is read
before the CRC. -/
theorem fourWaySingleByteChangeRejected : Obligations.FourWaySingleByteChangeRejected := by
  intro s c k b old a w v q i hlen
  obtain ⟨hpos, hle⟩ := fwParams_length hlen
  obtain ⟨_, _, hframe⟩ := exists_fwResponseForm_eq c k a q
  have hsize := fwResponseForm_length c k a q
  refine ⟨_, _, exec_fencR_of_le (s := s.withPort ⟨w, q⟩) hlen c k a, rfl, fun hi hold hne => ?byte,
    fun hshort => ?count⟩
  case byte =>
    have hcount : (fwParams q).length = countOf (byteAt ((fwResponseForm c k a q).set i b) 4) := by
      rw [byteAt_set_ne hi, hframe, countOf_fwHead hpos hle]
    have hwhole : ((fwResponseForm c k a q).set i b).length = 8 + (fwParams q).length := by
      rw [List.length_set, hsize, Nat.add_comm]
    have hcrc : crc16 ((fwResponseForm c k a q).set i b) ≠ 0 := by
      rw [← crc16_fwResponseForm c k a q]
      exact crc16From_set_ne hold hne
    rw [← List.take_of_length_le hwhole.le] at hcrc
    exact (exec_fdec_of_residue hcount hwhole.ge).trans (if_neg hcrc)
  case count =>
    have hcount : b = byteAt ((fwResponseForm c k a q).set 4 b) 4 := (byteAt_set_self (by omega) b).symm
    exact exec_fdec_shortFrame (congrArg countOf hcount) (List.length_set.trans_lt hshort)

/-! ### A command-form frame (R207 (e), 70_reset_and_hazards R285) -/

theorem crc16_fwCommandForm_append_iff {c : Byte} {a : Half} {q : List Byte} {x : Byte} :
    crc16 (fwCommandForm c a q ++ [x]) = 0 ↔ x = 0 := by
  have hzero : crc16Step 0 0 = 0 := by decide
  rw [crc16_append, fwCommandForm, crc16_withCrc]
  exact (Eq.congr_right hzero.symm).trans crc16Step_right_inj

/-- Settles O45: the frame alone is one byte too few; a byte behind it is read as the low byte of the CRC, and the CRC
of the frame being zero, it fits exactly when it is 0x00. -/
theorem commandFormGivenToFdec : Obligations.CommandFormGivenToFdec := by
  refine ⟨crc16Step_hi8, fun s c a w v q p rest x hlen hp => ?_⟩
  obtain rfl : p = fwParams q := hp
  obtain ⟨hpos, hle⟩ := fwParams_length hlen
  obtain ⟨h, l, hframe⟩ := exists_fwCommandForm_eq c a q
  have hhead := fwHead_length c a (fwParams q)
  have hcount : (fwParams q).length = countOf (byteAt (fwCommandForm c a q) 4) := by
    rw [hframe, countOf_fwHead hpos hle]
  have hshort : (fwCommandForm c a q).length < 8 + (fwParams q).length := by rw [fwCommandForm_length]; omega
  have hraw : fwCommandForm c a q ++ x :: rest = fwHead c a (fwParams q) ++ h :: l :: x :: rest := by
    rw [hframe, List.append_assoc]; rfl
  have hcrc : crc16 (fwHead c a (fwParams q) ++ [h, l, x]) = 0 ↔ x = 0 := by
    rw [← crc16_fwCommandForm_append_iff (c := c) (a := a) (q := q), hframe, List.append_assoc]; rfl
  refine ⟨_, _, _, exec_fencC_of_le (s := s.withPort ⟨w, q⟩) hlen c a, rfl, exec_fdec_shortFrame hcount hshort, rfl,
    fun hx => ⟨_, (exec_fdec_fwHead hpos hle hraw).trans (if_neg (hcrc.not.mpr hx)), rfl⟩,
    fun hx => ⟨_, _, (exec_fdec_fwHead hpos hle hraw).trans (if_pos (hcrc.mpr hx)), rfl, rfl, rfl, ?ack, ?crc⟩⟩
  case ack =>
    change some h = (fwCommandForm c a q)[(fwParams q).length + 5]?
    simp [hframe, hhead]
  case crc =>
    change some (be16 l x) = ((fwCommandForm c a q)[(fwParams q).length + 6]?).map fun l => be16 l 0x00
    simp [hframe, hhead, hx]

end Sys2Proof.Machine
end

section
/-! 45_system_ops: NOP, SRST and SCLR end ok in every state, and what each leaves behind. -/

namespace Sys2Proof.Machine

theorem exec_nop (s : State) : exec .nop s = .next (afterOk { err := 0 } s) := finish_eq Result.ok s

theorem exec_sclr (s : State) :
    exec .sclr s = .next (afterOk { err := 0, r8 := some s.status } (s.withStatus 0x00)) :=
  finish_eq { err := 0, r8 := some s.status } (s.withStatus 0x00)

/-- Settles O9: an operation that ends ok writes LASTERR and the result port, and NOP writes nothing besides. -/
theorem nopClearsOnlyLasterr : Obligations.NopClearsOnlyLasterr := by
  refine ⟨fun w h => ?_, exec_nop⟩
  rw [decode, h]; rfl

/-- Settles O10: the state that `resetValues` (R37) gives for SRST, with the register values of reset written out. -/
theorem srstResetsEveryRegister : Obligations.SrstResetsEveryRegister := by
  obtain ⟨-, exec_srst⟩ := resetValues
  refine ⟨fun w h => ?_, exec_srst⟩
  rw [decode, h]; rfl

/-- Settles O11: R8 is read from the state before the clear. -/
theorem sclrReturnsAndClearsStatus : Obligations.SclrReturnsAndClearsStatus := by
  refine ⟨fun w h => ?_, exec_sclr⟩
  rw [decode, h]; rfl

end Sys2Proof.Machine
end

section
/-! 60_exceptions: what a fault leaves unchanged, the operations that take none, and the idle step. -/

namespace Sys2Proof.Machine

/-! ### Taking a fault (R246) -/

/-- The frame of R246, with the fault named by the code on the result port. -/
theorem afterFault_frame {e : Err} {s : State} {r : Result} (hr : (afterFault e s).result = some r) :
    r = { err := r.err } ∧
      afterFault e s = { s with lasterr := r.err, status := s.status ||| 0x08#8, result := some r } := by
  cases hr
  exact ⟨rfl, rfl⟩

/-- An operation that ends with a non-zero code ended by taking that fault. -/
theorem exec_fault_frame {i : Instr} {s t : State} {r : Result} (h : exec i s = .next t)
    (hr : t.result = some r) (herr : r.err ≠ 0) :
    r = { err := r.err } ∧ t = { s with lasterr := r.err, status := s.status ||| 0x08#8, result := some r } := by
  cases exec_ends h with
  | fault => exact afterFault_frame hr
  | ok hok => cases hr; exact absurd hok herr

/-- Settles O46: for a step, the frame of its operation, or of IllegalOperation, in the state with the command on the
port. -/
theorem faultsChangeNothingElse : Obligations.FaultsChangeNothingElse := by
  refine ⟨fun i s t r => exec_fault_frame, fun s t r c cs hpending h hr herr => ?_⟩
  rcases step_cases h with ⟨hidle, -⟩ | ⟨c', cs', hpending', hend⟩
  · cases hpending.symm.trans hidle
  · cases hpending.symm.trans hpending'
    rcases hend with ⟨i, -, hexec⟩ | ⟨op, -, rfl⟩
    · exact exec_fault_frame hexec hr herr
    · exact afterFault_frame hr

/-! ### The operations that never fault (R242) -/

theorem finish_endsOk {r : Result} {s : State} (hr : r.err = 0) :
    ∃ t r', finish r s = .next t ∧ t.result = some r' ∧ r'.err = 0 :=
  ⟨_, r, rfl, rfl, hr⟩

/-- Settles O47: each meaning is one `finish`, with ERR 0 whatever the parser reports. -/
theorem operationsThatNeverFault : Obligations.OperationsThatNeverFault := by
  intro s a b i hi
  cases i with
  | mdec => exact finish_endsOk (mdecResult_err ..)
  | pfeed x => exact finish_endsOk (feedResult_err _)
  | nop | srst | sclr | xclr | xabs | xsum | cinit | cabs | csum | prst | pfeedn => exact finish_endsOk rfl
  | menc | eload | eget | eset | estore | edec | eenc | fencC | fencR | fdec => simp at hi

/-! ### The idle step (R260) -/

/-- Settles O8: with nothing pending, presenting answers `idle`. -/
theorem idleStepKeepsAllState : Obligations.IdleStepKeepsAllState :=
  fun _ hwf hidle => step_of_idle (by rw [present, if_pos hwf, hidle])

end Sys2Proof.Machine
end
